-- ==== Sys2Proof/Word.lean ====
section
/-! DEFINITION. The word types of the block: the widths the spec fixes (R5, R7, R61, R67). -/

namespace Sys2Proof

/-- A framebuffer byte or a bit mask, the spec's `u8` (R27, R81). -/
abbrev Byte := BitVec 8

/-- A coordinate operand, the spec's `s16`: two's complement, read as a signed integer with `toInt` (R7, R70). -/
abbrev Coord := BitVec 16

/-- A framebuffer byte index, the spec's `u10`: all 1024 values name a byte (R40). -/
abbrev Index := BitVec 10

/-- The request word `req[39:0]` (R61). -/
abbrev RequestWord := BitVec 40

/-- The response word `rsp[28:0]` (R67). -/
abbrev ResponseWord := BitVec 29

end Sys2Proof
end

