-- ==== Sys2Proof/Syntax.lean ====
section
/-! DEFINITION. The eight operations of the opcode table (R62, R63, R69), one constructor per row. -/

namespace Sys2Proof

/-- A request the block performs. Operands are the fields of formats XY and BI (R64, R65, R70). -/
inductive Instr where
  /-- NOP (R123). -/
  | nop
  /-- MAP x, y (R90). -/
  | map (x y : Coord)
  /-- PLOT.ADD x, y (R103). -/
  | plotAdd (x y : Coord)
  /-- PLOT.SUB x, y (R104). -/
  | plotSub (x y : Coord)
  /-- PLOT.INV x, y (R105). -/
  | plotInv (x y : Coord)
  /-- RDB idx (R120). -/
  | rdb (idx : Index)
  /-- WRB idx, data (R121). -/
  | wrb (idx : Index) (data : Byte)
  /-- CLR (R122). -/
  | clr
  deriving DecidableEq, Repr

end Sys2Proof
end

