-- ==== Sys2Proof/Decode.lean ====
section
/-! DEFINITION. Request words: the fields of R61 to R66, the decoder (R69, R70), the illegal encodings by name (R71),
the opcode table as rows of match and mask (R69), and the encoder. -/

namespace Sys2Proof

/-! ## Fields -/

/-- `op`, `req[39:37]` (R61, R62). -/
def opOf (w : RequestWord) : BitVec 3 := w.extractLsb' 37 3

/-- `mode`, `req[36:35]` (R61, R63). -/
def modeOf (w : RequestWord) : BitVec 2 := w.extractLsb' 35 2

/-- `rsv0`, `req[34:32]`, must be 000 (R61). -/
def rsv0Of (w : RequestWord) : BitVec 3 := w.extractLsb' 32 3

/-- `x`, `req[31:16]`, format XY (R64). -/
def xOf (w : RequestWord) : Coord := w.extractLsb' 16 16

/-- `y`, `req[15:0]`, format XY (R64). -/
def yOf (w : RequestWord) : Coord := w.extractLsb' 0 16

/-- `rsv1`, `req[31:18]`, format BI, must be 0 (R65). -/
def rsv1Of (w : RequestWord) : BitVec 14 := w.extractLsb' 18 14

/-- `idx`, `req[17:8]`, format BI (R65). -/
def idxOf (w : RequestWord) : Index := w.extractLsb' 8 10

/-- `data`, `req[7:0]`, format BI (R65). -/
def dataOf (w : RequestWord) : Byte := w.extractLsb' 0 8

/-- The whole operand `req[31:0]`, which format Z wants 0 (R61, R66). -/
def operandOf (w : RequestWord) : BitVec 32 := w.extractLsb' 0 32

/-! ## Decoding -/

/-- Why a word is ILLEGAL: the items of R71. Where several hold, the first in this order is named (log 13); the name
changes no effect. -/
inductive Illegal where
  /-- (a) `op = 110` or `op = 111`. -/
  | reservedOp
  /-- (b) PLOT with `mode = 11`. -/
  | reservedMode
  /-- (c) any op other than PLOT with `mode ≠ 00`. -/
  | modeOutsidePlot
  /-- (d) `rsv0 ≠ 000`. -/
  | rsv0Set
  /-- (e) RDB or WRB with `rsv1 ≠ 0`. -/
  | rsv1Set
  /-- (f) RDB with `data ≠ 0x00`. -/
  | rdbDataSet
  /-- (g) NOP or CLR with a bit of `req[34:0]` set (`rsv0` among them is named by (d)). -/
  | operandSet
  deriving DecidableEq, Repr

/-- What a request word decodes to: decoding is total (R69). -/
inductive Decoded where
  | instr (i : Instr)
  | illegal (reason : Illegal)
  deriving DecidableEq, Repr

/-- The operation read, if the word is one. -/
def Decoded.instr? : Decoded → Option Instr
  | .instr i => some i
  | .illegal _ => none

/-- Format XY with a write mode (R63, R64). -/
def decodePlot (w : RequestWord) : Decoded :=
  match (modeOf w).toNat with
  | 0 => .instr (.plotAdd (xOf w) (yOf w))
  | 1 => .instr (.plotSub (xOf w) (yOf w))
  | 2 => .instr (.plotInv (xOf w) (yOf w))
  | _ => .illegal .reservedMode

/-- Format Z: every operand bit is 0 (R66). -/
def decodeZ (w : RequestWord) (i : Instr) : Decoded :=
  if operandOf w = 0 then .instr i else .illegal .operandSet

/-- Format BI of RDB: `rsv1` and `data` are 0 (R65). -/
def decodeRdb (w : RequestWord) : Decoded :=
  if rsv1Of w = 0 then
    if dataOf w = 0 then .instr (.rdb (idxOf w)) else .illegal .rdbDataSet
  else .illegal .rsv1Set

/-- Format BI of WRB: `rsv1` is 0 (R65). -/
def decodeWrb (w : RequestWord) : Decoded :=
  if rsv1Of w = 0 then .instr (.wrb (idxOf w) (dataOf w)) else .illegal .rsv1Set

/-- The operand of a word whose `mode` and `rsv0` are in order: `op` selects the format (R61, R62). -/
def decodeByOp (w : RequestWord) : Decoded :=
  match (opOf w).toNat with
  | 0 => decodeZ w .nop
  | 1 => .instr (.map (xOf w) (yOf w))
  | 2 => decodePlot w
  | 3 => decodeRdb w
  | 4 => decodeWrb w
  | 5 => decodeZ w .clr
  | _ => .illegal .reservedOp

/-- The decoder, total over all words (R69), from the field rules R61 to R66; a word it rejects, it rejects by the
name of its item of R71. -/
def decode (w : RequestWord) : Decoded :=
  if 6 ≤ (opOf w).toNat then .illegal .reservedOp
  else if opOf w = 2 ∧ modeOf w = 3 then .illegal .reservedMode
  else if opOf w ≠ 2 ∧ modeOf w ≠ 0 then .illegal .modeOutsidePlot
  else if rsv0Of w ≠ 0 then .illegal .rsv0Set
  else decodeByOp w

/-! ## Encoding -/

/-- Format XY: `op`, `mode`, `rsv0 = 000`, `x`, `y` (R61, R64). -/
def encodeXY (op : BitVec 3) (mode : BitVec 2) (x y : Coord) : RequestWord :=
  op ++ mode ++ 0#3 ++ x ++ y

/-- Format BI: `op`, `mode = 00`, `rsv0 = 000`, `rsv1 = 0`, `idx`, `data` (R61, R65). -/
def encodeBI (op : BitVec 3) (idx : Index) (data : Byte) : RequestWord :=
  op ++ 0#2 ++ 0#3 ++ 0#14 ++ idx ++ data

/-- Format Z: `op`, every other bit 0 (R61, R66). -/
def encodeZ (op : BitVec 3) : RequestWord := op ++ 0#37

/-- The request word of an operation, from the `op` and `mode` values of R62 and R63. -/
def encode : Instr → RequestWord
  | .nop => encodeZ 0b000#3
  | .map x y => encodeXY 0b001#3 0b00#2 x y
  | .plotAdd x y => encodeXY 0b010#3 0b00#2 x y
  | .plotSub x y => encodeXY 0b010#3 0b01#2 x y
  | .plotInv x y => encodeXY 0b010#3 0b10#2 x y
  | .rdb idx => encodeBI 0b011#3 idx 0#8
  | .wrb idx data => encodeBI 0b100#3 idx data
  | .clr => encodeZ 0b101#3

/-! ## The opcode table -/

/-- One row of the opcode table: a word is the row's operation when `(req & mask) == match` (R69). -/
structure Row where
  mnemonic : String
  matchWord : RequestWord
  mask : RequestWord
  deriving DecidableEq, Repr

/-- The eight rows, as R69 prints them. -/
def opcodeTable : List Row :=
  [ ⟨"NOP", 0x0000000000#40, 0xFFFFFFFFFF#40⟩,
    ⟨"MAP", 0x2000000000#40, 0xFF00000000#40⟩,
    ⟨"PLOT.ADD", 0x4000000000#40, 0xFF00000000#40⟩,
    ⟨"PLOT.SUB", 0x4800000000#40, 0xFF00000000#40⟩,
    ⟨"PLOT.INV", 0x5000000000#40, 0xFF00000000#40⟩,
    ⟨"RDB", 0x6000000000#40, 0xFFFFFC00FF#40⟩,
    ⟨"WRB", 0x8000000000#40, 0xFFFFFC0000#40⟩,
    ⟨"CLR", 0xA000000000#40, 0xFFFFFFFFFF#40⟩ ]

/-- The word is the row's operation (R69). -/
def Row.accepts (r : Row) (w : RequestWord) : Bool := w &&& r.mask == r.matchWord

/-- The table's name of an operation. -/
def Instr.mnemonic : Instr → String
  | .nop => "NOP"
  | .map _ _ => "MAP"
  | .plotAdd _ _ => "PLOT.ADD"
  | .plotSub _ _ => "PLOT.SUB"
  | .plotInv _ _ => "PLOT.INV"
  | .rdb _ => "RDB"
  | .wrb _ _ => "WRB"
  | .clr => "CLR"

/-- The operation the decoder reads from a table word of `nbits` bits: bit 0 of the number is `req[0]`, bits above
`nbits` are 0, and a number of more than 40 bits is no request (log 14). -/
def decodeTableWord (nbits w : Nat) : Option Instr :=
  if w % 2 ^ nbits < 2 ^ 40 then (decode (BitVec.ofNat 40 (w % 2 ^ nbits))).instr? else none

end Sys2Proof
end

