-- ==== Sys2Proof/Config.lean ====
section
/-! DEFINITION. What is fixed for a block: the two panel layouts, the build parameter (R6, R8, R9), and the one free value
of the model. The spec leaves no result of an operation open; it leaves open what a reset latches when the strap moves
during it (R165(a)). -/

namespace Sys2Proof

/-- The panel layout `LAYOUT` (R6): `FULL` is 128×64, `HALF` is 128×32. Its one-bit code is in
Machine/Operands.lean (R22). -/
inductive Layout where
  | FULL
  | HALF
  deriving DecidableEq, Repr, Inhabited

/-- The build parameter (R8, R9, R23). `INDEX0_GUARD` is no register: no request reads or changes it and reset
does not affect it. -/
structure Config where
  /-- `INDEX0_GUARD`: when true the byte mutators refuse to write byte index 0 (R8, R101). -/
  index0Guard : Bool
  deriving DecidableEq, Repr

/-- The spec's default, `INDEX0_GUARD = false` (R8; 90_conflicts.md C5). -/
def Config.standard : Config := { index0Guard := false }

/-- A free value: the layout `layout_q` holds after the `n`th reset edge at which the strap has moved during the reset. R165
leaves the outcome of that violation unspecified and 93_implementation_defined.md makes it "any value of the two layouts",
so the constant has no body and nothing is known of its values (log 7, log 19). -/
opaque Config.freeLayout (n : Nat) : Layout

end Sys2Proof
end

