-- ==== Sys2Proof/Machine/State.lean ====
section
/-! DEFINITION. The state of the block as plain data (R22, R23, R27, R30, R31, R60), the reasons a step can stop, and
the state after reset. -/

namespace Sys2Proof.Machine

/-- The result code of a response (R68); its two-bit codes are in Machine/Flags.lean. -/
inductive Status where
  | DONE
  | CLIPPED
  | GUARDED
  | ILLEGAL
  deriving DecidableEq, Repr

/-- A response by its fields (R67); the 29-bit word is `Response.pack` in Machine/Flags.lean. -/
structure Response where
  status : Status
  mValid : Bool
  mIdx : Index
  mMask : Byte
  rdata : Byte
  deriving DecidableEq, Repr

/-- The framebuffer `FB` (R27): pairs of address and byte, strictly rising, listing no zero byte. A byte that is not
listed reads `0x00`, the value R27 and R161 give every byte at reset. The form is `Memory.wf` in Machine/Ops.lean. -/
abbrev Memory := List Host.Cell

/-- One rising clock edge (R60): the input pins as they stand there, and the two choices the spec leaves to the block's
timing (R167, R169; log 3). -/
structure Edge where
  /-- `rst`, synchronous, active high (R160). -/
  rst : Bool
  /-- The `LAYOUT` strap, looked at only while `rst` is 1 (R22, R164). -/
  strap : BitVec 1
  /-- `req_valid`. -/
  reqValid : Bool
  /-- `req[39:0]`. -/
  req : RequestWord
  /-- The block is willing to take a request at this edge; reset overrides it (R160, R169). -/
  ready : Bool
  /-- The block answers its oldest unanswered request at this edge, if it owes one; reset overrides it (R60, R160,
  R167). -/
  answer : Bool
  deriving DecidableEq, Repr

/-- What the `LAYOUT` strap has shown since `rst` rose, one sample at each reset edge: R165(a) asks that it hold one value
for the whole of a reset. The model's own record (log 7). -/
inductive ResetStrap where
  /-- The last edge was outside reset. -/
  | outside
  /-- Every reset edge of this reset has shown this layout. -/
  | steady (layout : Layout)
  /-- Two reset edges of this reset have shown different layouts, which breaks R165(a). -/
  | moved
  deriving DecidableEq, Repr

/-- The state. `layout_q` and `fb` are the architectural state (R22, R27); `owed` holds the requests in flight (R31),
`rsp` and `presented` the two sides of the port (R60, R165(c)); `resetStrap` is what the strap has shown in this reset
(R165(a)); `cfg` is constant; `edges` is the outside world still to come (log 3) and `draws` counts the free values taken
(log 19). -/
structure State where
  /-- `INDEX0_GUARD` (R23). -/
  cfg : Config
  /-- The latched panel layout (R22). -/
  layout_q : Layout
  /-- `FB[0..1023]` (R27). -/
  fb : Memory
  /-- Responses of requests accepted and not yet answered, oldest first (R31, R60, R163, R169). -/
  owed : List Response
  /-- `rsp_valid` and `rsp` at the last edge: `none` is `rsp_valid = 0` (R60). -/
  rsp : Option ResponseWord
  /-- The request presented and not yet accepted, which the requester must hold (R165(c)). -/
  presented : Option RequestWord
  /-- What the strap has shown in the reset that is on, if one is (R165(a); log 7). -/
  resetStrap : ResetStrap
  /-- How many free layouts have been taken: the next one is `Config.freeLayout draws` (log 19). -/
  draws : Nat
  /-- The clock edges still to come, the next one first. -/
  edges : List Edge
  deriving DecidableEq, Repr

/-- The block raises no exception and takes no trap, and it never stops accepting requests after a condition (R140,
R143); every index a request can carry names a byte (R40). So there is no fault: this type has no constructor. Safe: no
step can end in one. -/
inductive Fault where
  deriving DecidableEq, Repr

/-- Why the model gives a step no meaning. -/
inductive Refusal where
  /-- Raised by an arm of `exec` for an operation with no meaning yet; no arm raises it. Safe: the model stops. -/
  | notModelled (mnemonic : String)
  /-- Raised by a clock edge outside reset at which the requester has withdrawn or changed a request that was presented
  and not yet accepted. R165(c) forbids it and leaves the outcome unspecified; 93_implementation_defined.md treats it as
  `refuse`. Safe: the model stops where a block would go on (log 6). -/
  | requestChanged
  deriving DecidableEq, Repr

/-- The state after a reset of a block built as `cfg`, its strap at `layout` for the whole reset (R31, R165(a)): FB all
zero, nothing in flight, `rsp_valid` 0. The last edge was a reset edge, and no free value has been taken (log 19). -/
def State.afterReset (cfg : Config) (layout : Layout) : State :=
  { cfg := cfg, layout_q := layout, fb := [], owed := [], rsp := none, presented := none,
    resetStrap := .steady layout, draws := 0, edges := [] }

/-- The machine right after reset: the default guard (R8) and the strap at FULL (DESIGN CHOICE, log 1: R22 and R31 give
the strap's value, whichever it is). -/
def State.reset : State := State.afterReset Config.standard .FULL

end Sys2Proof.Machine
end

