-- ==== Sys2Proof/Machine/Flags.lean ====
section
/-! DEFINITION. The block has no flags (R25). What a request reports instead is its response: the status codes (R68) and
the packing of the response word (R67). -/

namespace Sys2Proof.Machine

/-- The two-bit status code (R68, R141). -/
def Status.code : Status → BitVec 2
  | .DONE => 0b00
  | .CLIPPED => 0b01
  | .GUARDED => 0b10
  | .ILLEGAL => 0b11

/-- The status a code stands for (R68): all four codes are used. -/
def statusOfCode (c : BitVec 2) : Status :=
  match c.toNat with
  | 0 => .DONE
  | 1 => .CLIPPED
  | 2 => .GUARDED
  | _ => .ILLEGAL

/-- The word on `rsp`: `status[28:27]`, `m_valid[26]`, `m_idx[25:16]`, `m_mask[15:8]`, `rdata[7:0]` (R67). -/
def Response.pack (r : Response) : ResponseWord :=
  r.status.code ++ BitVec.ofBool r.mValid ++ r.mIdx ++ r.mMask ++ r.rdata

/-- The fields a requester reads from `rsp` (R67). -/
def responseOfWord (w : ResponseWord) : Response :=
  { status := statusOfCode (w.extractLsb' 27 2)
    mValid := w.getLsbD 26
    mIdx := w.extractLsb' 16 10
    mMask := w.extractLsb' 8 8
    rdata := w.extractLsb' 0 8 }

/-- The shape R67 and R141 give a response: an ILLEGAL response has every other field 0; CLIPPED records no point;
GUARDED records the mapped point, whose index is 0; a response that carries a mapped point carries no read byte; and
without `m_valid` the index and mask are 0. -/
def Response.wellShaped (r : Response) : Bool :=
  (r.mValid || (r.mIdx == 0 && r.mMask == 0)) &&
  (!r.mValid || r.rdata == 0) &&
  match r.status with
  | .DONE => true
  | .CLIPPED => !r.mValid && r.rdata == 0
  | .GUARDED => r.mValid && r.mIdx == 0
  | .ILLEGAL => !r.mValid && r.rdata == 0

end Sys2Proof.Machine
end

