-- ==== Sys2Proof/Machine/Operands.lean ====
section
/-! DEFINITION. The operand forms (R63, R64, R70) and the panel geometry (R5, R6, R28, R45, R82): layout codes, write
modes, coordinates as integers, and where a framebuffer bit sits on the panel. -/

namespace Sys2Proof.Machine

/-- Pixels per row, in both layouts (R5, R82). -/
def panelWidth : Nat := 128

/-- Bytes of the framebuffer, in both layouts (R5, R27). -/
def framebufferSize : Nat := 1024

/-- `HEIGHT(layout)`, rows of the panel (R6, R82). -/
def panelHeight : Layout → Nat
  | .FULL => 64
  | .HALF => 32

/-- The strap's code: 0 FULL, 1 HALF (R22, R60). -/
def layoutOfStrap (b : BitVec 1) : Layout := if b = 0 then .FULL else .HALF

/-- The one-bit value of `layout_q` (R22, R81). -/
def layoutBit : Layout → BitVec 1
  | .FULL => 0
  | .HALF => 1

/-- The write modes of the byte mutators (R63, R100). -/
inductive WriteMode where
  | ADD
  | SUBTRACT
  | INVERT
  deriving DecidableEq, Repr

/-- The two-bit code of a write mode (R63). -/
def WriteMode.code : WriteMode → BitVec 2
  | .ADD => 0b00
  | .SUBTRACT => 0b01
  | .INVERT => 0b10

/-- The point lies on the panel: a signed compare of the full 16 bits (R83). -/
def onPanel (layout : Layout) (x y : Coord) : Bool :=
  decide (0 ≤ x.toInt ∧ x.toInt < panelWidth ∧ 0 ≤ y.toInt ∧ y.toInt < panelHeight layout)

/-- What a requester must do with a coordinate wider than 16 bits: saturate it to the s16 range (R108, R165(e)). -/
def saturateCoord (v : Int) : Coord :=
  if v < -32768 then BitVec.ofInt 16 (-32768)
  else if 32767 < v then BitVec.ofInt 16 32767
  else BitVec.ofInt 16 v

/-- The page of a byte, `i[9:7]` (R40, R45). -/
def pageOf (i : Index) : BitVec 3 := i.extractLsb' 7 3

/-- The column of a byte, `i[6:0]` (R40, R45). -/
def columnOf (i : Index) : BitVec 7 := i.extractLsb' 0 7

/-- The column of the pixel that bit `k` of byte `i` belongs to (R28). -/
def pixelX (i : Index) : Coord := BitVec.ofNat 16 (i.toNat % 128)

/-- The row of the pixel that bit `k` of byte `i` belongs to (R28): eight rows to a byte in FULL, four in HALF. -/
def pixelY (layout : Layout) (i : Index) (k : Fin 8) : Coord :=
  match layout with
  | .FULL => BitVec.ofNat 16 (8 * (i.toNat / 128) + k.val)
  | .HALF => BitVec.ofNat 16 (4 * (i.toNat / 128) + k.val / 2)

end Sys2Proof.Machine
end

