-- ==== Sys2Proof/Machine/Ops.lean ====
section
/-! DEFINITION. The operations every request shares (R12): `MemRead`, `MemWrite` and the clear over the framebuffer,
`respond`, and the report of an undecodable word. The block takes no exception and returns from none (R140, R145): the
report in the response is all there is. -/

namespace Sys2Proof.Machine

/-! ## The framebuffer as data -/

/-- The byte at an address; an address that is not listed reads `0x00` (R27, R161). -/
def memRead : Memory → Nat → Byte
  | [], _ => 0
  | (b, v) :: m, a => if a = b then v else memRead m a

/-- Drop what is listed at an address. -/
def memErase : Memory → Nat → Memory
  | [], _ => []
  | (b, v) :: m, a => if a = b then memErase m a else (b, v) :: memErase m a

/-- Put a byte before the first higher address. -/
def memInsert : Memory → Nat → Byte → Memory
  | [], a, v => [(a, v)]
  | (b, u) :: m, a, v => if a < b then (a, v) :: (b, u) :: m else (b, u) :: memInsert m a v

/-- Store a byte, keeping the canonical form: storing `0x00` only removes the entry. -/
def memWrite (m : Memory) (a : Nat) (v : Byte) : Memory :=
  if v = 0 then memErase m a else memInsert (memErase m a) a v

/-- Every listed address is above `lo`, rising strictly, inside the framebuffer, with a byte that is not zero. -/
def memWfAbove : Option Nat → Memory → Bool
  | _, [] => true
  | lo, (b, v) :: m =>
    (match lo with
      | none => true
      | some l => decide (l < b)) &&
    decide (b < framebufferSize) && v != 0 && memWfAbove (some b) m

/-- The canonical form: equal framebuffers are equal lists. -/
def Memory.wf (m : Memory) : Bool := memWfAbove none m

/-! ## The primitives of R12 -/

/-- `MemRead(i, 1)`: the byte `FB[i]` (R12). -/
def fbRead (s : State) (i : Index) : Byte := memRead s.fb i.toNat

/-- `MemWrite(i, 1, v)`: `FB[i] <- v` (R12). -/
def fbWrite (i : Index) (v : Byte) (s : State) : State := { s with fb := memWrite s.fb i.toNat v }

/-- `for i in 0..1023: MemWrite(i, 1, 0x00)` as one step (R42, R122): nothing is left listed. -/
def fbClear (s : State) : State := { s with fb := [] }

/-- `respond(status, rdata, m_valid, m_idx, m_mask)`: the one response of a request joins those owed, the newest last
(R12, R60, R67). -/
def respond (status : Status) (rdata : Byte) (mValid : Bool) (mIdx : Index) (mMask : Byte) (s : State) : State :=
  { s with owed := s.owed ++ [{ status := status, mValid := mValid, mIdx := mIdx, mMask := mMask, rdata := rdata }] }

/-- A word that matches no row: status ILLEGAL, every other field 0, no state change (R67, R71, R141). -/
def respondIllegal (s : State) : State := respond .ILLEGAL 0 false 0 0 s

end Sys2Proof.Machine
end

