-- ==== Sys2Proof/Machine/Buffer.lean ====
section
/-! DEFINITION. Framebuffer access: RDB, WRB, CLR (R120 to R122) and NOP (R123). None of them looks at the mapper,
`layout_q` or `INDEX0_GUARD`. -/

namespace Sys2Proof.Machine

/-- RDB (R120). -/
def execRdb (idx : Index) (s : State) : Host.Outcome State Fault Refusal :=
  .next (respond .DONE (fbRead s idx) false 0 0 s)

/-- WRB (R121). -/
def execWrb (idx : Index) (data : Byte) (s : State) : Host.Outcome State Fault Refusal :=
  .next (respond .DONE 0 false 0 0 (fbWrite idx data s))

/-- CLR (R122). -/
def execClr (s : State) : Host.Outcome State Fault Refusal :=
  .next (respond .DONE 0 false 0 0 (fbClear s))

/-- NOP (R123). -/
def execNop (s : State) : Host.Outcome State Fault Refusal :=
  .next (respond .DONE 0 false 0 0 s)

end Sys2Proof.Machine
end

