-- ==== Sys2Proof/Machine/Mapper.lean ====
section
/-! DEFINITION. The combinational pixel address mapper (R80 to R87) and MAP (R90). -/

namespace Sys2Proof.Machine

/-- The mapper's outputs `map_valid`, `map_idx`, `map_mask` (R81). -/
structure MapOut where
  valid : Bool
  idx : Index
  mask : Byte
  deriving DecidableEq, Repr

/-- `x + (r >> 3) * 128` for a column and a bit-row (R85, R87). -/
def byteIndex (x r : Nat) : Index := BitVec.ofNat 10 (x + r / 8 * panelWidth)

/-- `1 << (r & 7)` for a bit-row (R85, R87). -/
def bitMask (r : Nat) : Byte := 1#8 <<< (r % 8)

/-- The doubled row `y' = (y << 1) + 1` of the HALF layout (R86). -/
def doubledRow (y : Nat) : Nat := 2 * y + 1

/-- `m | (m >> 1)`: the mask OR-ed with its own right shift by one bit (R87). -/
def pairMask (m : Byte) : Byte := m ||| (m >>> 1)

/-- The mapper of a point on the panel (R85, R86, R87). -/
def mapOnPanel (layout : Layout) (x y : Nat) : MapOut :=
  match layout with
  | .FULL => { valid := true, idx := byteIndex x y, mask := bitMask y }
  | .HALF => { valid := true, idx := byteIndex x (doubledRow y), mask := pairMask (bitMask (doubledRow y)) }

/-- `PAM(layout, x, y)` (R81): the clip test comes first, and a clipped point gives zeros (R83, R84). -/
def pam (layout : Layout) (x y : Coord) : MapOut :=
  if onPanel layout x y then mapOnPanel layout x.toInt.toNat y.toInt.toNat
  else { valid := false, idx := 0, mask := 0 }

/-- MAP (R90). -/
def execMap (x y : Coord) (s : State) : Host.Outcome State Fault Refusal :=
  let p := pam s.layout_q x y
  if p.valid then .next (respond .DONE 0 true p.idx p.mask s)
  else .next (respond .CLIPPED 0 false 0 0 s)

end Sys2Proof.Machine
end

