-- ==== Sys2Proof/Machine/Plot.lean ====
section
/-! DEFINITION. The byte mutators (R100, R101), the shared sequence of every PLOT (R102) and PLOT.ADD, PLOT.SUB and
PLOT.INV (R103 to R105). -/

namespace Sys2Proof.Machine

/-- `Combine(mode, old, m)` (R100). -/
def combine (mode : WriteMode) (old m : Byte) : Byte :=
  match mode with
  | .ADD => old ||| m
  | .SUBTRACT => old &&& ~~~m
  | .INVERT => old ^^^ m

/-- `IndexOK(i)`: the mutators' bounds check, which leaves out index 0 when `INDEX0_GUARD` is true (R101). -/
def indexOK (cfg : Config) (i : Index) : Bool :=
  (if cfg.index0Guard then decide (0 < i.toNat) else true) && decide (i.toNat < framebufferSize)

/-- The sequence of R102: clip, then the bounds check, then one read-modify-write. -/
def plot (mode : WriteMode) (x y : Coord) (s : State) : State :=
  let p := pam s.layout_q x y
  if p.valid then
    if indexOK s.cfg p.idx then
      respond .DONE 0 true p.idx p.mask (fbWrite p.idx (combine mode (fbRead s p.idx) p.mask) s)
    else respond .GUARDED 0 true p.idx p.mask s
  else respond .CLIPPED 0 false 0 0 s

/-- PLOT.ADD (R103). -/
def execPlotAdd (x y : Coord) (s : State) : Host.Outcome State Fault Refusal := .next (plot .ADD x y s)

/-- PLOT.SUB (R104). -/
def execPlotSub (x y : Coord) (s : State) : Host.Outcome State Fault Refusal := .next (plot .SUBTRACT x y s)

/-- PLOT.INV (R105). -/
def execPlotInv (x y : Coord) (s : State) : Host.Outcome State Fault Refusal := .next (plot .INVERT x y s)

end Sys2Proof.Machine
end

