-- ==== Sys2Proof/Machine/Dispatch.lean ====
section
/-! DEFINITION. One arm per operation of the opcode table. -/

namespace Sys2Proof.Machine

def exec (i : Instr) (s : State) : Host.Outcome State Fault Refusal :=
  match i with
  | .nop => Sys2Proof.Machine.execNop s
  | .map x y => Sys2Proof.Machine.execMap x y s
  | .plotAdd x y => Sys2Proof.Machine.execPlotAdd x y s
  | .plotSub x y => Sys2Proof.Machine.execPlotSub x y s
  | .plotInv x y => Sys2Proof.Machine.execPlotInv x y s
  | .rdb idx => Sys2Proof.Machine.execRdb idx s
  | .wrb idx data => Sys2Proof.Machine.execWrb idx data s
  | .clr => Sys2Proof.Machine.execClr s

end Sys2Proof.Machine
end

