-- ==== Sys2Proof/Machine/Port.lean ====
section
/-! DEFINITION. The request and response port (R60), one rising clock edge at a time: reset (R160 to R164), the answer to
the oldest unanswered request, the acceptance of a request and its performance as one atomic step (R13, R46). -/

namespace Sys2Proof.Machine

/-- `req_ready`: 0 while `rst` is 1, else as the block chooses (R160, R169). -/
def Edge.reqReady (e : Edge) : Bool := !e.rst && e.ready

/-- A request is accepted where `req_valid = 1` and `req_ready = 1` (R60). -/
def Edge.accepts (e : Edge) : Bool := e.reqValid && e.reqReady

/-- What the strap has shown in this reset, once a reset edge has shown `layout` as well (R165(a)). -/
def ResetStrap.sample (layout : Layout) : ResetStrap → ResetStrap
  | .outside => .steady layout
  | .steady seen => if seen = layout then .steady seen else .moved
  | .moved => .moved

/-- The layout a reset edge latches: the strap's (R22, R160), or, where the strap has moved during the reset, either of
the two (R165(a); 93_implementation_defined.md; log 7). -/
def latchedLayout (seen : ResetStrap) (layout : Layout) (draws : Nat) : Layout :=
  match seen with
  | .outside => layout
  | .steady _ => layout
  | .moved => Config.freeLayout draws

/-- The free values taken after a reset edge: one more where the strap has moved (log 19). -/
def drawsAfter (seen : ResetStrap) (draws : Nat) : Nat :=
  match seen with
  | .outside => draws
  | .steady _ => draws
  | .moved => draws + 1

/-- A reset edge (R160, R161, R163): the strap is latched, every byte of FB becomes `0x00` (log 8), requests in flight are
dropped, nothing is accepted and `rsp_valid` is 0. `INDEX0_GUARD` is not affected (R23). -/
def resetEdge (e : Edge) (s : State) : State :=
  let seen := s.resetStrap.sample (layoutOfStrap e.strap)
  { s with
    layout_q := latchedLayout seen (layoutOfStrap e.strap) s.draws
    draws := drawsAfter seen s.draws
    resetStrap := seen
    fb := [], owed := [], rsp := none, presented := none }

/-- The response side of an edge outside reset: the oldest response owed stands on `rsp` for this edge only, or
`rsp_valid` is 0 (R60). -/
def answerOldest (e : Edge) (s : State) : State :=
  match e.answer, s.owed with
  | true, r :: rest => { s with owed := rest, rsp := some r.pack }
  | _, _ => { s with rsp := none }

/-- The requester has withdrawn or changed a request it presented before it was accepted (R165(c)). -/
def requestBroken (e : Edge) (s : State) : Bool :=
  match s.presented with
  | none => false
  | some w => !(e.reqValid && e.req == w)

/-- Perform an accepted request word as one atomic step (R13, R69): the operation it decodes to, or the report that it is
ILLEGAL. -/
def serve (w : RequestWord) (s : State) : Host.Outcome State Fault Refusal :=
  match decode w with
  | .instr i => exec i s
  | .illegal _ => .next (respondIllegal s)

/-- The state in which an accepted request is performed: the answer of this edge has left, no request is pending, and no
reset is on. -/
def acceptState (e : Edge) (s : State) : State :=
  { answerOldest e s with presented := none, resetStrap := .outside }

/-- An edge outside reset that accepts nothing: the request shown, if any, stays presented (R60, R165(c)). -/
def waitEdge (e : Edge) (s : State) : State :=
  { answerOldest e s with presented := if e.reqValid then some e.req else none, resetStrap := .outside }

/-- One rising edge of `clk`. -/
def clockEdge (e : Edge) (s : State) : Host.Outcome State Fault Refusal :=
  if e.rst then .next (resetEdge e s)
  else if requestBroken e s then .refused .requestChanged
  else if e.accepts then serve e.req (acceptState e s)
  else .next (waitEdge e s)

/-- The edge at which a requester presents a word and the block, owing no answer now, takes it. -/
def requestEdge (w : RequestWord) : Edge :=
  { rst := false, strap := 0, reqValid := true, req := w, ready := true, answer := false }

end Sys2Proof.Machine
end

