-- ==== Sys2Proof/Machine/Step.lean ====
section
/-! DEFINITION. The step: the next clock edge. -/

namespace Sys2Proof.Machine

/-- One step is one rising edge of `clk`, the next of `edges`. Every register changes on an edge only (R60), so where
none is left the state stays as it is: the run is over (R170; log 3). -/
def step (s : State) : Host.Outcome State Fault Refusal :=
  match s.edges with
  | [] => .next s
  | e :: rest => clockEdge e { s with edges := rest }

/-- `s` with one request word on the port at its next edge, the block ready to take it (log 12). A word of more than 40
bits is no request; the port carries its low 40 bits. -/
def State.withFetchWord (s : State) (nbits w : Nat) : State :=
  { s with presented := none, edges := requestEdge (BitVec.ofNat 40 (w % 2 ^ nbits)) :: s.edges }

end Sys2Proof.Machine
end

