-- ==== Sys2Proof/WellFormed.lean ====
section
/-! DEFINITION. Which written operands an assembler accepts (R73): coordinates in −32768..32767 or a 16-bit pattern,
an index in 0..1023, a data byte in 0..255. A value out of range is refused, never truncated. The typed operands of
`Instr` cannot leave these ranges; a written statement can. -/

namespace Sys2Proof

/-- A number as it is written (R73): decimal, or hexadecimal `0x..`. -/
inductive Operand where
  | dec (n : Int)
  | hex (n : Nat)
  deriving DecidableEq, Repr

/-- The number an operand stands for, before any width is imposed. -/
def Operand.value : Operand → Int
  | .dec n => n
  | .hex n => n

/-- A written statement of R73, its operands not yet checked. -/
inductive Source where
  | nop
  | map (x y : Operand)
  | plotAdd (x y : Operand)
  | plotSub (x y : Operand)
  | plotInv (x y : Operand)
  | rdb (idx : Operand)
  | wrb (idx data : Operand)
  | clr
  deriving DecidableEq, Repr

/-- `<x>` and `<y>`: a signed decimal in −32768..32767, or a hexadecimal 16-bit pattern (R73). -/
def Operand.isCoord : Operand → Bool
  | .dec n => decide (-32768 ≤ n ∧ n ≤ 32767)
  | .hex n => decide (n < 65536)

/-- `<idx>`: an unsigned integer 0..1023 (R73). DESIGN CHOICE (log 15): it may be hexadecimal. -/
def Operand.isIndex (o : Operand) : Bool := decide (0 ≤ o.value ∧ o.value ≤ 1023)

/-- `<data>`: an unsigned integer 0..255 (R73). DESIGN CHOICE (log 15): it may be hexadecimal. -/
def Operand.isData (o : Operand) : Bool := decide (0 ≤ o.value ∧ o.value ≤ 255)

/-- Every operand of the statement is in the range R73 gives it. -/
def Source.wellFormed : Source → Bool
  | .nop => true
  | .map x y => x.isCoord && y.isCoord
  | .plotAdd x y => x.isCoord && y.isCoord
  | .plotSub x y => x.isCoord && y.isCoord
  | .plotInv x y => x.isCoord && y.isCoord
  | .rdb idx => idx.isIndex
  | .wrb idx data => idx.isIndex && data.isData
  | .clr => true

/-- The statement that writes an operation, all operands in decimal. -/
def Instr.toSource : Instr → Source
  | .nop => .nop
  | .map x y => .map (.dec x.toInt) (.dec y.toInt)
  | .plotAdd x y => .plotAdd (.dec x.toInt) (.dec y.toInt)
  | .plotSub x y => .plotSub (.dec x.toInt) (.dec y.toInt)
  | .plotInv x y => .plotInv (.dec x.toInt) (.dec y.toInt)
  | .rdb idx => .rdb (.dec idx.toNat)
  | .wrb idx data => .wrb (.dec idx.toNat) (.dec data.toNat)
  | .clr => .clr

/-- An operation is well formed when the statement that writes it is. -/
def Instr.wellFormed (i : Instr) : Bool := i.toSource.wellFormed

end Sys2Proof
end

