-- ==== Sys2Proof/Machine/Assembler.lean ====
section
/-! DEFINITION. The text form of a request (R73): one statement a line, a comment from `;` to the end of the line, and an
assembler that refuses what is out of range. There are no pseudo-instructions (R74). A line is a list of characters.
What R73 leaves open about blanks, letter case, the spelling of numbers and hexadecimal indexes is fixed in log 15. -/

namespace Sys2Proof.Machine

/-- A blank: space, tab or carriage return (log 15). -/
def isBlank (c : Char) : Bool := c == ' ' || c == '\t' || c == '\r'

/-- Drop blanks at both ends. -/
def trimBlanks (l : List Char) : List Char := ((l.dropWhile isBlank).reverse.dropWhile isBlank).reverse

/-- What stands before the comment (R73). -/
def withoutComment (l : List Char) : List Char := l.takeWhile (· != ';')

/-- The pieces between commas. -/
def splitCommas : List Char → List (List Char)
  | [] => [[]]
  | c :: cs =>
    if c == ',' then [] :: splitCommas cs
    else match splitCommas cs with
      | [] => [[c]]
      | f :: fs => (c :: f) :: fs

/-- A decimal digit. -/
def decDigit (c : Char) : Option Nat := if 48 ≤ c.toNat ∧ c.toNat ≤ 57 then some (c.toNat - 48) else none

/-- A hexadecimal digit in either case (log 15). -/
def hexDigit (c : Char) : Option Nat :=
  if 48 ≤ c.toNat ∧ c.toNat ≤ 57 then some (c.toNat - 48)
  else if 65 ≤ c.toNat ∧ c.toNat ≤ 70 then some (c.toNat - 55)
  else if 97 ≤ c.toNat ∧ c.toNat ≤ 102 then some (c.toNat - 87)
  else none

/-- Digits read into a number, the most significant first, on top of what is read already. -/
def readDigits (digit : Char → Option Nat) (base : Nat) (acc : Nat) : List Char → Option Nat
  | [] => some acc
  | c :: cs =>
    match digit c with
    | some d => readDigits digit base (acc * base + d) cs
    | none => none

/-- Digits, at least one. -/
def readNumber (digit : Char → Option Nat) (base : Nat) : List Char → Option Nat
  | [] => none
  | c :: cs => readDigits digit base 0 (c :: cs)

/-- A written operand: `-` and decimal digits, `0x` and hexadecimal digits, or decimal digits (R73). DESIGN CHOICE (log 15):
R73 does not say how a number is spelled. Leading zeros are taken, however many. A minus is taken before decimal digits
whatever the operand, so that `RDB -0` is `RDB 0`. A `+` sign, `0X` and a minus before `0x` are refused. -/
def readOperand : List Char → Option Operand
  | '-' :: ds => (readNumber decDigit 10 ds).map fun (n : Nat) => .dec (-(n : Int))
  | '0' :: 'x' :: hs => (readNumber hexDigit 16 hs).map fun (n : Nat) => .hex n
  | ds => (readNumber decDigit 10 ds).map fun (n : Nat) => .dec (n : Int)

/-- All operands of a list, or none if one cannot be read. -/
def readOperands : List (List Char) → Option (List Operand)
  | [] => some []
  | t :: ts =>
    match readOperand (trimBlanks t), readOperands ts with
    | some o, some os => some (o :: os)
    | _, _ => none

/-- The statement a name and its operands make (R73). -/
def sourceOf (name : List Char) (ops : List Operand) : Option Source :=
  match ops with
  | [] =>
    if name == ['N', 'O', 'P'] then some .nop
    else if name == ['C', 'L', 'R'] then some .clr
    else none
  | [a] => if name == ['R', 'D', 'B'] then some (.rdb a) else none
  | [a, b] =>
    if name == ['M', 'A', 'P'] then some (.map a b)
    else if name == ['P', 'L', 'O', 'T', '.', 'A', 'D', 'D'] then some (.plotAdd a b)
    else if name == ['P', 'L', 'O', 'T', '.', 'S', 'U', 'B'] then some (.plotSub a b)
    else if name == ['P', 'L', 'O', 'T', '.', 'I', 'N', 'V'] then some (.plotInv a b)
    else if name == ['W', 'R', 'B'] then some (.wrb a b)
    else none
  | _ => none

/-- A coordinate in range as its 16 bits: a decimal in two's complement, a hexadecimal as the pattern itself (R73). -/
def coordOf (o : Operand) : Coord := BitVec.ofInt 16 o.value

/-- An index in range (R73). -/
def indexOf (o : Operand) : Index := BitVec.ofNat 10 o.value.toNat

/-- A data byte in range (R73). -/
def dataByteOf (o : Operand) : Byte := BitVec.ofNat 8 o.value.toNat

/-- The operation of a statement whose operands are in range. -/
def instrOf : Source → Instr
  | .nop => .nop
  | .map x y => .map (coordOf x) (coordOf y)
  | .plotAdd x y => .plotAdd (coordOf x) (coordOf y)
  | .plotSub x y => .plotSub (coordOf x) (coordOf y)
  | .plotInv x y => .plotInv (coordOf x) (coordOf y)
  | .rdb idx => .rdb (indexOf idx)
  | .wrb idx data => .wrb (indexOf idx) (dataByteOf data)
  | .clr => .clr

/-- What a line of text assembles to. -/
inductive AsmResult where
  /-- Nothing but blanks and a comment. -/
  | nothing
  /-- One request. -/
  | instr (i : Instr)
  /-- No statement of R73. -/
  | notAStatement
  /-- An operand is out of range: refused, not truncated (R73). -/
  | outOfRange
  deriving DecidableEq, Repr

/-- Check a statement, then take its operation (R73). -/
def assembleSource (src : Source) : AsmResult :=
  if src.wellFormed then .instr (instrOf src) else .outOfRange

/-- The name at the start of a statement and the text of its operands. -/
def assembleStatement (stmt : List Char) : AsmResult :=
  let name := stmt.takeWhile fun c => !isBlank c
  let rest := trimBlanks (stmt.dropWhile fun c => !isBlank c)
  let fields := if rest.isEmpty then [] else splitCommas rest
  match readOperands fields with
  | none => .notAStatement
  | some ops =>
    match sourceOf name ops with
    | none => .notAStatement
    | some src => assembleSource src

/-- One line (R73). -/
def assembleLine (line : List Char) : AsmResult :=
  let stmt := trimBlanks (withoutComment line)
  if stmt.isEmpty then .nothing else assembleStatement stmt

/-! ## Writing a request -/

/-- The character of a decimal digit. -/
def digitChar (d : Nat) : Char := Char.ofNat (48 + d % 10)

/-- The decimal digits of a number below `10 ^ (fuel + 1)`, without leading zeros. -/
def decDigits : Nat → Nat → List Char
  | 0, n => [digitChar n]
  | fuel + 1, n => if n < 10 then [digitChar n] else decDigits fuel (n / 10) ++ [digitChar (n % 10)]

/-- An unsigned operand in decimal: no operand has more than five digits. -/
def natText (n : Nat) : List Char := decDigits 4 n

/-- A signed decimal. -/
def intText (n : Int) : List Char := if n < 0 then '-' :: natText n.natAbs else natText n.natAbs

/-- A name and two operands, as R73 lays them out. -/
def statementText (name a b : List Char) : List Char := name ++ [' '] ++ a ++ [',', ' '] ++ b

/-- The statement that writes a request, in decimal (R73). -/
def textOf : Instr → List Char
  | .nop => ['N', 'O', 'P']
  | .map x y => statementText ['M', 'A', 'P'] (intText x.toInt) (intText y.toInt)
  | .plotAdd x y => statementText ['P', 'L', 'O', 'T', '.', 'A', 'D', 'D'] (intText x.toInt) (intText y.toInt)
  | .plotSub x y => statementText ['P', 'L', 'O', 'T', '.', 'S', 'U', 'B'] (intText x.toInt) (intText y.toInt)
  | .plotInv x y => statementText ['P', 'L', 'O', 'T', '.', 'I', 'N', 'V'] (intText x.toInt) (intText y.toInt)
  | .rdb idx => ['R', 'D', 'B', ' '] ++ natText idx.toNat
  | .wrb idx data => statementText ['W', 'R', 'B'] (natText idx.toNat) (natText data.toNat)
  | .clr => ['C', 'L', 'R']

end Sys2Proof.Machine
end

