-- ==== Sys2Proof/Safety.lean ====
section
/-! DEFINITION. What claims about the block are stated in: the invariant of its state, runs of requests, what a
written statement stands for, and the block as R32 and R46 describe it, one request after another over a plain function
of bytes. -/

namespace Sys2Proof.Machine

/-! ## The invariant -/

/-- The framebuffer keeps its canonical form and every response owed has the shape R67 and R141 give it. -/
def State.inv (s : State) : Bool := Memory.wf s.fb && s.owed.all Response.wellShaped

/-! ## Pixels and bits -/

/-- Bit `k` of byte `i` belongs to the pixel `(x, y)` (R28). -/
def ownsBit (layout : Layout) (x y : Coord) (i : Index) (k : Fin 8) : Bool :=
  decide (x = pixelX i ∧ y = pixelY layout i k)

/-- The operation is a PLOT of the point `(x, y)` in this write mode (R63, R103 to R105). -/
def PlotsIn (mode : WriteMode) (x y : Coord) (i : Instr) : Prop :=
  (mode = .ADD ∧ i = .plotAdd x y) ∨ (mode = .SUBTRACT ∧ i = .plotSub x y) ∨ (mode = .INVERT ∧ i = .plotInv x y)

/-- The operation is a PLOT of the point `(x, y)`, in whichever mode. -/
def PlotsAt (x y : Coord) (i : Instr) : Prop := i = .plotAdd x y ∨ i = .plotSub x y ∨ i = .plotInv x y

/-! ## Runs -/

/-- Requests performed one after another (R46), stopping at the first that gives no next state. -/
def execAll : List Instr → State → Host.Outcome State Fault Refusal
  | [], s => .next s
  | i :: is, s =>
    match exec i s with
    | .next t => execAll is t
    | .fault r => .fault r
    | .refused r => .refused r

/-- A buffer replacement: WRB of every byte of `B`, in some order (R49, R124). -/
def setBufferRequests (order : List Index) (B : Index → Byte) : List Instr := order.map fun i => .wrb i (B i)

/-- The read-out of a transmission: RDB 0, RDB 1, …, RDB 1023 (R44). -/
def transmitRequests : List Instr := (List.range framebufferSize).map fun n => .rdb (BitVec.ofNat 10 n)

/-- The words of the requests a list of edges accepts, in acceptance order (R60). -/
def acceptedWords (es : List Edge) : List RequestWord := (es.filter Edge.accepts).map Edge.req

/-- The response words that stand on `rsp` with `rsp_valid = 1` at the next `k` edges, in order (R60, R170). -/
def answeredWords : Nat → State → List ResponseWord
  | 0, _ => []
  | k + 1, s =>
    match step s with
    | .next t => t.rsp.toList ++ answeredWords k t
    | _ => []

/-! ## Written statements -/

/-- The operand writes this coordinate (R73): a signed decimal in −32768..32767, or a hexadecimal 16-bit pattern. -/
def WritesCoord (o : Operand) (c : Coord) : Prop :=
  match o with
  | .dec n => -32768 ≤ n ∧ n ≤ 32767 ∧ c.toInt = n
  | .hex n => n < 65536 ∧ c.toNat = n

/-- The operand writes this index (R73): an unsigned integer 0..1023. DESIGN CHOICE (log 15): it may be hexadecimal. -/
def WritesIndex (o : Operand) (idx : Index) : Prop := 0 ≤ o.value ∧ o.value ≤ 1023 ∧ (idx.toNat : Int) = o.value

/-- The operand writes this byte (R73): an unsigned integer 0..255. DESIGN CHOICE (log 15): it may be hexadecimal. -/
def WritesByte (o : Operand) (data : Byte) : Prop := 0 ≤ o.value ∧ o.value ≤ 255 ∧ (data.toNat : Int) = o.value

/-- The statement writes this operation: each operand is in its own range and writes the operation's (R73). -/
def Writes (src : Source) (i : Instr) : Prop :=
  match src with
  | .nop => i = .nop
  | .map x y => ∃ a b, WritesCoord x a ∧ WritesCoord y b ∧ i = .map a b
  | .plotAdd x y => ∃ a b, WritesCoord x a ∧ WritesCoord y b ∧ i = .plotAdd a b
  | .plotSub x y => ∃ a b, WritesCoord x a ∧ WritesCoord y b ∧ i = .plotSub a b
  | .plotInv x y => ∃ a b, WritesCoord x a ∧ WritesCoord y b ∧ i = .plotInv a b
  | .rdb idx => ∃ j, WritesIndex idx j ∧ i = .rdb j
  | .wrb idx data => ∃ j d, WritesIndex idx j ∧ WritesByte data d ∧ i = .wrb j d
  | .clr => i = .clr

/-! ## The block as R32 states it -/

/-- `(layout_q, FB)` (R32). -/
abbrev SpecState := Layout × (Index → Byte)

/-- The architectural state a machine state holds (R32). -/
def State.spec (s : State) : SpecState := (s.layout_q, fbRead s)

/-- A response that carries no mapped point. -/
def plainResponse (status : Status) (rdata : Byte) : Response :=
  { status := status, mValid := false, mIdx := 0, mMask := 0, rdata := rdata }

/-- A response that carries the mapped point `p`. -/
def pointResponse (status : Status) (p : MapOut) : Response :=
  { status := status, mValid := true, mIdx := p.idx, mMask := p.mask, rdata := 0 }

/-- `FB` with one byte replaced. -/
def setByte (FB : Index → Byte) (i : Index) (v : Byte) : Index → Byte := fun j => if j = i then v else FB j

/-- A PLOT over `(layout_q, FB)` (R102). -/
def specPlot (cfg : Config) (mode : WriteMode) (x y : Coord) (σ : SpecState) : SpecState × Response :=
  let p := pam σ.1 x y
  if !p.valid then (σ, plainResponse .CLIPPED 0)
  else if cfg.index0Guard && p.idx == 0 then (σ, pointResponse .GUARDED p)
  else ((σ.1, setByte σ.2 p.idx (combine mode (σ.2 p.idx) p.mask)), pointResponse .DONE p)

/-- One operation over `(layout_q, FB)`: the state after it and its one response (R90, R102 to R105, R120 to R123). -/
def specOp (cfg : Config) (i : Instr) (σ : SpecState) : SpecState × Response :=
  match i with
  | .nop => (σ, plainResponse .DONE 0)
  | .map x y =>
    let p := pam σ.1 x y
    (σ, if p.valid then pointResponse .DONE p else plainResponse .CLIPPED 0)
  | .plotAdd x y => specPlot cfg .ADD x y σ
  | .plotSub x y => specPlot cfg .SUBTRACT x y σ
  | .plotInv x y => specPlot cfg .INVERT x y σ
  | .rdb idx => (σ, plainResponse .DONE (σ.2 idx))
  | .wrb idx data => ((σ.1, setByte σ.2 idx data), plainResponse .DONE 0)
  | .clr => ((σ.1, fun _ => 0), plainResponse .DONE 0)

/-- One request word over `(layout_q, FB)`: a word that is no operation is reported ILLEGAL (R69, R71). -/
def specRequest (cfg : Config) (w : RequestWord) (σ : SpecState) : SpecState × Response :=
  match decode w with
  | .instr i => specOp cfg i σ
  | .illegal _ => (σ, plainResponse .ILLEGAL 0)

/-- Requests one at a time, in acceptance order (R46): the last state and the responses in order. -/
def specRun (cfg : Config) : List RequestWord → SpecState → SpecState × List Response
  | [], σ => (σ, [])
  | w :: ws, σ =>
    let one := specRequest cfg w σ
    let rest := specRun cfg ws one.1
    (rest.1, one.2 :: rest.2)

end Sys2Proof.Machine
end

