-- ==== Sys2Proof/Certificates/Slice0/Obligations.lean ====
section
/-! DEFINITION. The statements for the provers. Each docstring names the rule of spec/ it formalises. -/

open Sys2Proof Sys2Proof.Machine

/-! ## Encoding -/

/-- R61 to R66, R70: every operation, with every operand at every value, is what its own word decodes to; and its
operands, written in decimal, are in the ranges of R73. -/
def Obligations.DecodeOfEncode : Prop :=
  ∀ i : Instr, decode (encode i) = .instr i ∧ i.wellFormed = true

/-- R69, R72: a word has one meaning at most: an operation is read only from its own word. -/
def Obligations.EncodeOfDecode : Prop :=
  ∀ (w : RequestWord) (i : Instr), decode w = .instr i → encode i = w

/-- R69: the rows as the rule prints them; a word that exactly one row accepts is that row's operation, a word that no
row accepts is ILLEGAL, and no word is accepted by two rows. -/
def Obligations.DecodeAgreesWithTable : Prop :=
  opcodeTable.map (fun r => (r.mnemonic, r.matchWord.toNat, r.mask.toNat)) =
    [("NOP", 0x0000000000, 0xFFFFFFFFFF), ("MAP", 0x2000000000, 0xFF00000000),
     ("PLOT.ADD", 0x4000000000, 0xFF00000000), ("PLOT.SUB", 0x4800000000, 0xFF00000000),
     ("PLOT.INV", 0x5000000000, 0xFF00000000), ("RDB", 0x6000000000, 0xFFFFFC00FF),
     ("WRB", 0x8000000000, 0xFFFFFC0000), ("CLR", 0xA000000000, 0xFFFFFFFFFF)] ∧
  ∀ w : RequestWord,
    match opcodeTable.filter fun r => w &&& r.mask == r.matchWord with
    | [] => ∃ reason, decode w = .illegal reason
    | [r] => ∃ i, decode w = .instr i ∧ i.mnemonic = r.mnemonic
    | _ => False

/-- R71: exactly the words of items (a) to (g) are no operation, and such a word gets the ILLEGAL response and changes no
state. -/
def Obligations.IllegalWordsAreListed : Prop :=
  ∀ w : RequestWord,
    ((∃ reason, decode w = .illegal reason) ↔
      (w.extractLsb 39 37 = 0b110#3 ∨ w.extractLsb 39 37 = 0b111#3) ∨
      (w.extractLsb 39 37 = 0b010#3 ∧ w.extractLsb 36 35 = 0b11#2) ∨
      (w.extractLsb 39 37 ≠ 0b010#3 ∧ w.extractLsb 36 35 ≠ 0b00#2) ∨
      w.extractLsb 34 32 ≠ 0b000#3 ∨
      ((w.extractLsb 39 37 = 0b011#3 ∨ w.extractLsb 39 37 = 0b100#3) ∧ w.extractLsb 31 18 ≠ 0#14) ∨
      (w.extractLsb 39 37 = 0b011#3 ∧ w.extractLsb 7 0 ≠ 0#8) ∨
      ((w.extractLsb 39 37 = 0b000#3 ∨ w.extractLsb 39 37 = 0b101#3) ∧ w.extractLsb 34 0 ≠ 0#35)) ∧
    ∀ reason, decode w = .illegal reason → ∀ s : State,
      serve w s = .next { s with owed := s.owed ++
        [plainResponse .ILLEGAL 0] }

/-- Words written out from R61 to R66 decode to the operation they stand for (the examples of 95_test_vectors.md). -/
def Obligations.WrittenWordsDecode : Prop :=
  decode 0x0000000000#40 = .instr .nop ∧
  decode 0x20000A0011#40 = .instr (.map 10 17) ∧
  decode 0x40FFFF0000#40 = .instr (.plotAdd (-1) 0) ∧
  decode 0x480005000D#40 = .instr (.plotSub 5 13) ∧
  decode 0x500006000D#40 = .instr (.plotInv 6 13) ∧
  decode 0x600003FF00#40 = .instr (.rdb 1023) ∧
  decode 0x800003FFA5#40 = .instr (.wrb 1023 0xA5) ∧
  decode 0xA000000000#40 = .instr .clr ∧
  decode 0x5800000000#40 = .illegal .reservedMode ∧
  decode 0x6000040000#40 = .illegal .rsv1Set

/-- R67: where each field stands in the response word, the four status codes (R68), and which fields each request fills:
the mapper's outputs for MAP and PLOT, the byte read for RDB, and 0 everywhere else. -/
def Obligations.ResponseWordFields : Prop :=
  (Status.DONE.code = 0b00#2 ∧ Status.CLIPPED.code = 0b01#2 ∧ Status.GUARDED.code = 0b10#2 ∧
    Status.ILLEGAL.code = 0b11#2) ∧
  (∀ r : Response,
    r.pack.extractLsb 28 27 = r.status.code ∧ r.pack.getLsbD 26 = r.mValid ∧
    r.pack.extractLsb 25 16 = r.mIdx ∧ r.pack.extractLsb 15 8 = r.mMask ∧
    r.pack.extractLsb 7 0 = r.rdata ∧ responseOfWord r.pack = r) ∧
  ∀ (w : RequestWord) (s : State), ∃ t r, serve w s = .next t ∧ t.owed = s.owed ++ [r] ∧
    (∀ x y, (decode w = .instr (.map x y) ∨ ∃ i, PlotsAt x y i ∧ decode w = .instr i) →
      r.mValid = (pam s.layout_q x y).valid ∧ r.mIdx = (pam s.layout_q x y).idx ∧
      r.mMask = (pam s.layout_q x y).mask) ∧
    (w.extractLsb 39 37 ≠ 0b001#3 → w.extractLsb 39 37 ≠ 0b010#3 →
      r.mValid = false ∧ r.mIdx = 0 ∧ r.mMask = 0) ∧
    (∀ idx, decode w = .instr (.rdb idx) → r.rdata = memRead s.fb idx.toNat) ∧
    (w.extractLsb 39 37 ≠ 0b011#3 → r.rdata = 0) ∧
    (r.status = .ILLEGAL → r.mValid = false ∧ r.mIdx = 0 ∧ r.mMask = 0 ∧ r.rdata = 0)

/-! ## The port -/

/-- R13, R60: at an edge that accepts a word which decodes to `i`, the step is `exec i` in the state the port leaves
after it has answered its oldest request: the framebuffer, layout and guard of before, no request presented, no reset on,
and on the response side either the oldest response owed on `rsp` or nothing. -/
def Obligations.StepRunsDecoded : Prop :=
  ∀ (s : State) (e : Edge) (rest : List Edge) (i : Instr),
    s.edges = e :: rest → e.rst = false → e.reqValid = true → e.ready = true →
    (s.presented = none ∨ s.presented = some e.req) → decode e.req = .instr i →
    step s = exec i (acceptState e { s with edges := rest }) ∧
    (acceptState e { s with edges := rest }).fb = s.fb ∧
    (acceptState e { s with edges := rest }).layout_q = s.layout_q ∧
    (acceptState e { s with edges := rest }).cfg = s.cfg ∧
    (acceptState e { s with edges := rest }).edges = rest ∧
    (acceptState e { s with edges := rest }).presented = none ∧
    (acceptState e { s with edges := rest }).resetStrap = .outside ∧
    (acceptState e { s with edges := rest }).draws = s.draws ∧
    ((∃ r, e.answer = true ∧ s.owed = r :: (acceptState e { s with edges := rest }).owed ∧
        (acceptState e { s with edges := rest }).rsp = some r.pack) ∨
     ((e.answer = false ∨ s.owed = []) ∧ (acceptState e { s with edges := rest }).owed = s.owed ∧
        (acceptState e { s with edges := rest }).rsp = none))

/-- Log 12 (the model's own interface): a word put on the port with `withFetchWord` is the next request performed. -/
def Obligations.FetchWordRunsNext : Prop :=
  ∀ (s : State) (w : RequestWord) (i : Instr), decode w = .instr i →
    step (s.withFetchWord 40 w.toNat) = exec i { s with presented := none, rsp := none, resetStrap := .outside }

/-- R60: one response for each request accepted, in acceptance order, and the oldest leaves first: an edge outside reset
takes at most one response from the front and adds at most one at the back. -/
def Obligations.OneResponsePerRequest : Prop :=
  ∀ (s t : State) (e : Edge) (rest : List Edge),
    s.edges = e :: rest → e.rst = false → step s = .next t →
    ∃ left added, t.owed = left ++ added ∧
      added.length = (if e.reqValid && e.ready then 1 else 0) ∧
      ((∃ r, e.answer = true ∧ s.owed = r :: left ∧ t.rsp = some r.pack) ∨
       ((e.answer = false ∨ s.owed = []) ∧ left = s.owed ∧ t.rsp = none))

/-- R169: an edge that accepts nothing changes no byte, no layout and no request in flight but the one it answers; a
request it shows stays presented, and no reset is on. -/
def Obligations.WaitingChangesNothing : Prop :=
  ∀ (s : State) (e : Edge) (rest : List Edge),
    s.edges = e :: rest → e.rst = false → (s.presented = none ∨ (e.reqValid = true ∧ s.presented = some e.req)) →
    (e.reqValid = false ∨ e.ready = false) →
    ∃ t, step s = .next t ∧ t.fb = s.fb ∧ t.layout_q = s.layout_q ∧ t.cfg = s.cfg ∧ t.edges = rest ∧
      t.presented = (if e.reqValid then some e.req else none) ∧ t.resetStrap = .outside ∧ t.draws = s.draws ∧
      (t.owed = s.owed ∨ (e.answer = true ∧ t.owed = s.owed.tail))

/-- R140, R165(c), D24: no step faults, and a step is refused exactly at an edge outside reset on which a request presented
and not yet accepted is withdrawn or changed (log 6, the model's treatment); every other step gives a next state. -/
def Obligations.StepsStopOnlyOnABrokenDuty : Prop :=
  ∀ s : State,
    (step s = .refused .requestChanged ↔
      ∃ e rest w, s.edges = e :: rest ∧ e.rst = false ∧ s.presented = some w ∧ ¬ (e.reqValid = true ∧ e.req = w)) ∧
    ((∃ t, step s = .next t) ∨ step s = .refused .requestChanged)

/-- R167 (fairness): edges that each answer, as many as there are responses owed, deliver all of them, in order. -/
def Obligations.OwedAnswersDrain : Prop :=
  ∀ (s : State) (es rest : List Edge),
    s.edges = es ++ rest → es.length = s.owed.length → s.presented = none →
    (∀ e ∈ es, e.rst = false ∧ e.answer = true ∧ e.reqValid = false) →
    ∃ t, Host.Core.run core es.length s = .next t ∧ t.owed = [] ∧
      answeredWords es.length s = s.owed.map Response.pack ∧ t.fb = s.fb ∧ t.layout_q = s.layout_q

/-! ## Reset -/

/-- R160, R161, R163, R23: a reset edge, in any state, accepts nothing, answers nothing, leaves every byte of FB `0x00`,
drops the responses owed and leaves the guard. A strap that has not moved in this reset is latched; a strap that has moved
breaks R165(a), and the layout is then the model's free value (log 7, log 19). The model's own treatment: FB is zero at the
reset edge itself (log 8: R162 lets the zero-fill go on after reset), and the request presented is forgotten (log 6). -/
def Obligations.ResetEdge : Prop :=
  ∀ (s : State) (e : Edge) (rest : List Edge), s.edges = e :: rest → e.rst = true →
    e.reqReady = false ∧ e.accepts = false ∧
    ∃ t, step s = .next t ∧ t.rsp = none ∧ t.owed = [] ∧ t.presented = none ∧
      (∀ a, memRead t.fb a = 0) ∧ t.cfg = s.cfg ∧ t.edges = rest ∧
      ((s.resetStrap = .outside ∨ s.resetStrap = .steady (if e.strap = 0#1 then .FULL else .HALF)) →
        t.layout_q = (if e.strap = 0#1 then .FULL else .HALF) ∧ t.resetStrap = .steady t.layout_q ∧
        t.draws = s.draws) ∧
      (¬ (s.resetStrap = .outside ∨ s.resetStrap = .steady (if e.strap = 0#1 then .FULL else .HALF)) →
        t.layout_q = Config.freeLayout s.draws ∧ t.resetStrap = .moved ∧ t.draws = s.draws + 1)

/-- R31: the state after reset, for every build and strap: the strap's layout, every byte `0x00`, no response owed or on
`rsp`, and the invariant. The model's own fields: no request presented (log 6), no edge to come (log 3), and a strap that
has shown this layout only (log 7). The state the host starts from is one of these (strap FULL: log 1). -/
def Obligations.AfterReset : Prop :=
  (∀ (cfg : Config) (layout : Layout),
    (State.afterReset cfg layout).layout_q = layout ∧ (State.afterReset cfg layout).cfg = cfg ∧
    (∀ a, memRead (State.afterReset cfg layout).fb a = 0) ∧ (State.afterReset cfg layout).owed = [] ∧
    (State.afterReset cfg layout).rsp = none ∧ (State.afterReset cfg layout).presented = none ∧
    (State.afterReset cfg layout).edges = [] ∧ (State.afterReset cfg layout).resetStrap = .steady layout ∧
    (State.afterReset cfg layout).inv = true) ∧
  State.reset = State.afterReset { index0Guard := false } .FULL

/-- R22, R31, R165(a): a reset of one or more edges that holds the strap at one value, from any state outside reset, leaves
exactly the state after reset with that layout, whatever went before. (The free values taken and the edges still to come
are not the reset's: log 19, log 3.) -/
def Obligations.SteadyResetLatchesTheStrap : Prop :=
  ∀ (s : State) (es rest : List Edge) (b : BitVec 1),
    s.edges = es ++ rest → es ≠ [] → (∀ e ∈ es, e.rst = true ∧ e.strap = b) → s.resetStrap = .outside →
    Host.Core.run core es.length s =
      .next { State.afterReset s.cfg (if b = 0#1 then .FULL else .HALF) with edges := rest, draws := s.draws }

/-- R164: `layout_q` changes at no edge outside reset, and the level of the strap there has no effect. -/
def Obligations.LayoutChangesOnlyInReset : Prop :=
  (∀ s t : State, step s = .next t → t.layout_q ≠ s.layout_q → ∃ e rest, s.edges = e :: rest ∧ e.rst = true) ∧
  ∀ (s : State) (e : Edge) (rest : List Edge) (b : BitVec 1), e.rst = false →
    step { s with edges := { e with strap := b } :: rest } = step { s with edges := e :: rest }

/-- R23: no step, reset edges included, changes `INDEX0_GUARD`. -/
def Obligations.GuardNeverChanges : Prop :=
  ∀ s t : State, step s = .next t → t.cfg.index0Guard = s.cfg.index0Guard

/-! ## Invariant and whole-machine rules -/

/-- Every step keeps the invariant: the framebuffer stays canonical (strictly rising addresses below 1024, no zero byte
listed) and every response owed has the shape of R67 and R141. -/
def Obligations.StepKeepsInvariant : Prop :=
  ∀ s t : State, s.inv = true → step s = .next t → t.inv = true

/-- R3, R48, R102, R120 to R123: a byte of FB changes only at a reset edge or where the edge accepts CLR, a WRB of that
byte, or a PLOT whose point is on the panel, is mapped to that byte and is not held off by the guard. -/
def Obligations.BytesChangeOnlyByTheirWriters : Prop :=
  ∀ (s t : State) (a : Nat), step s = .next t → memRead t.fb a ≠ memRead s.fb a →
    ∃ e rest, s.edges = e :: rest ∧
      (e.rst = true ∨
       (e.accepts = true ∧
        (decode e.req = .instr .clr ∨
         (∃ idx v, decode e.req = .instr (.wrb idx v) ∧ idx.toNat = a) ∨
         (∃ x y i, PlotsAt x y i ∧ decode e.req = .instr i ∧ (pam s.layout_q x y).valid = true ∧
            (pam s.layout_q x y).idx.toNat = a ∧ (s.cfg.index0Guard = true → a ≠ 0)))))

/-- R46, R60, R168, R169: over any edges outside reset, with any timing, the responses given and still owed are those of
the accepted requests performed one at a time, in acceptance order, and the layout and framebuffer are what that leaves
(the block as R32 states it). -/
def Obligations.RunsAreSequential : Prop :=
  ∀ (k : Nat) (s t : State), k ≤ s.edges.length → (∀ e ∈ s.edges.take k, e.rst = false) →
    Host.Core.run core k s = .next t →
    t.spec = (specRun s.cfg (acceptedWords (s.edges.take k)) s.spec).1 ∧
    answeredWords k s ++ t.owed.map Response.pack =
      s.owed.map Response.pack ++
        (specRun s.cfg (acceptedWords (s.edges.take k)) s.spec).2.map Response.pack

/-- R25, R30, R32: what a request does and answers depends on the guard, the layout and the bytes of FB alone: no earlier
status, response or request changes it. -/
def Obligations.RequestsIgnoreThePast : Prop :=
  ∀ (w : RequestWord) (s u : State), s.cfg = u.cfg → s.layout_q = u.layout_q →
    (∀ i : Index, fbRead s i = fbRead u i) →
    ∃ s' u' r, serve w s = .next s' ∧ serve w u = .next u' ∧
      s'.owed = s.owed ++ [r] ∧ u'.owed = u.owed ++ [r] ∧
      s'.layout_q = u'.layout_q ∧ ∀ i : Index, fbRead s' i = fbRead u' i

/-- R141, R142, R143: when each status other than DONE is reported, its code, what it records, and that it changes no state; the
four cases exclude each other in the order ILLEGAL, CLIPPED, GUARDED, DONE. -/
def Obligations.ConditionsAreReported : Prop :=
  ∀ (w : RequestWord) (s : State), ∃ t r, serve w s = .next t ∧ t.owed = s.owed ++ [r] ∧
    (r.status = .ILLEGAL ↔ ∃ reason, decode w = .illegal reason) ∧
    (r.status = .CLIPPED ↔ ∃ x y i, (i = .map x y ∨ PlotsAt x y i) ∧ decode w = .instr i ∧
      ¬ (0 ≤ x.toInt ∧ x.toInt < 128 ∧ 0 ≤ y.toInt ∧ y.toInt < panelHeight s.layout_q)) ∧
    (r.status = .GUARDED ↔ ∃ x y i, PlotsAt x y i ∧ decode w = .instr i ∧
      (pam s.layout_q x y).valid = true ∧ (pam s.layout_q x y).idx = 0 ∧ s.cfg.index0Guard = true) ∧
    (r.status = .CLIPPED → r.pack.extractLsb 28 27 = 0b01#2) ∧
    (r.status = .GUARDED → r.pack.extractLsb 28 27 = 0b10#2) ∧
    (r.status = .ILLEGAL → r.pack.extractLsb 28 27 = 0b11#2) ∧
    (r.status ≠ .DONE → t = { s with owed := t.owed } ∧ r.mIdx = 0 ∧ r.rdata = 0) ∧
    (r.status = .ILLEGAL ∨ r.status = .CLIPPED → r.mValid = false ∧ r.mMask = 0) ∧
    (r.status = .GUARDED → r.mValid = true ∧ ∀ x y i, PlotsAt x y i → decode w = .instr i →
      r.mMask = (pam s.layout_q x y).mask)

/-! ## The mapper -/

/-- R82, R83: the panel's size in each layout, and the in-bounds test on the signed values of all 16 bits. -/
def Obligations.ClipTest : Prop :=
  panelHeight .FULL = 64 ∧ panelHeight .HALF = 32 ∧ panelWidth = 128 ∧
  ∀ (layout : Layout) (x y : Coord),
    (pam layout x y).valid = true ↔
      0 ≤ x.toInt ∧ x.toInt < 128 ∧ 0 ≤ y.toInt ∧ y.toInt < (match layout with | .FULL => 64 | .HALF => 32)

/-- R84: a clipped point gives index 0 and mask `0x00`. -/
def Obligations.ClippedPointGivesZeros : Prop :=
  ∀ (layout : Layout) (x y : Coord),
    ¬ (0 ≤ x.toInt ∧ x.toInt < 128 ∧ 0 ≤ y.toInt ∧ y.toInt < panelHeight layout) →
    pam layout x y = { valid := false, idx := 0, mask := 0 }

/-- R85: FULL layout: the byte index is `x + (y/8)*128` and the mask has exactly bit `y & 7` set. -/
def Obligations.FullLayoutMapping : Prop :=
  ∀ x y : Coord, (pam .FULL x y).valid = true →
    ((pam .FULL x y).idx.toNat : Int) = x.toInt + y.toInt / 8 * 128 ∧
    ∀ k : Nat, (pam .FULL x y).mask.getLsbD k = decide ((k : Int) = y.toInt % 8)

/-- R87: HALF layout: with `y' = 2y + 1` the byte index is `x + (y'/8)*128`, and the mask has exactly the bits
`y' & 7` and `(y' & 7) − 1` set. -/
def Obligations.HalfLayoutMapping : Prop :=
  ∀ x y : Coord, (pam .HALF x y).valid = true →
    ((pam .HALF x y).idx.toNat : Int) = x.toInt + (2 * y.toInt + 1) / 8 * 128 ∧
    ∀ k : Nat, (pam .HALF x y).mask.getLsbD k =
      decide ((k : Int) = (2 * y.toInt + 1) % 8 ∨ (k : Int) = (2 * y.toInt + 1) % 8 - 1)

/-- R86: the HALF clip test is the test of `0 ≤ y' < 64` over the integers, and a row whose 16-bit `2y + 1` wraps onto
the panel is still clipped. -/
def Obligations.HalfClipDoesNotWrap : Prop :=
  ∀ x y : Coord,
    ((pam .HALF x y).valid = true ↔
      0 ≤ x.toInt ∧ x.toInt < 128 ∧ 0 ≤ 2 * y.toInt + 1 ∧ 2 * y.toInt + 1 < 64) ∧
    (y.toInt ≤ -32737 → (pam .HALF x y).valid = false ∧ 0 ≤ (2 * y + 1).toInt ∧ (2 * y + 1).toInt < 64)

/-- R88: the closed forms of index and mask, bit slice by bit slice. -/
def Obligations.ClosedForms : Prop :=
  ∀ x y : Coord,
    ((pam .FULL x y).valid = true →
      (pam .FULL x y).idx = y.extractLsb' 3 3 ++ x.extractLsb' 0 7 ∧
      (pam .FULL x y).mask = 1#8 <<< (y.extractLsb' 0 3).toNat) ∧
    ((pam .HALF x y).valid = true →
      (pam .HALF x y).idx = y.extractLsb' 2 3 ++ x.extractLsb' 0 7 ∧
      (pam .HALF x y).mask = 0x03#8 <<< (2 * (y.extractLsb' 0 2).toNat))

/-- R28, R89: which pixel a bit of FB belongs to. The mapper sends `(x, y)` to bit `k` of byte `i` exactly for the pixel
R28 names; that pixel is on the panel, so every bit belongs to one pixel and to no other. -/
def Obligations.EveryBitBelongsToOnePixel : Prop :=
  ∀ (layout : Layout) (i : Index) (k : Fin 8),
    (∀ x y : Coord,
      ((pam layout x y).valid = true ∧ (pam layout x y).idx = i ∧ (pam layout x y).mask.getLsbD k.val = true) ↔
        x.toInt = (i.toNat % 128 : Nat) ∧
        y.toInt = (match layout with
          | .FULL => (8 * (i.toNat / 128) + k.val : Nat)
          | .HALF => (4 * (i.toNat / 128) + k.val / 2 : Nat))) ∧
    (pam layout (pixelX i) (pixelY layout i k)).valid = true ∧
    (pam layout (pixelX i) (pixelY layout i k)).idx = i ∧
    (pam layout (pixelX i) (pixelY layout i k)).mask.getLsbD k.val = true

/-- R40, R45: the page of a mapped byte holds eight rows in FULL and four in HALF, and its offset is the column. -/
def Obligations.PagesHoldTheirRows : Prop :=
  (∀ i : Index, (pageOf i).toNat = i.toNat / 128 ∧ (columnOf i).toNat = i.toNat % 128) ∧
  ∀ (layout : Layout) (x y : Coord), (pam layout x y).valid = true →
    ((columnOf (pam layout x y).idx).toNat : Int) = x.toInt ∧
    ((pageOf (pam layout x y).idx).toNat : Int) = (match layout with | .FULL => y.toInt / 8 | .HALF => y.toInt / 4)

/-- R108, R165(e): a coordinate of any width, saturated as the requester must, is on the panel exactly when it was
before. -/
def Obligations.SaturationKeepsTheClip : Prop :=
  ∀ (layout : Layout) (x y : Int),
    (pam layout (saturateCoord x) (saturateCoord y)).valid = true ↔
      0 ≤ x ∧ x < 128 ∧ 0 ≤ y ∧ y < panelHeight layout

/-- R90: MAP answers with the mapper's outputs, DONE on the panel and CLIPPED off it, whatever the guard; it changes
nothing else. -/
def Obligations.MapReportsThePixel : Prop :=
  ∀ (x y : Coord) (s : State),
    exec (.map x y) s = .next { s with owed := s.owed ++
      [if 0 ≤ x.toInt ∧ x.toInt < 128 ∧ 0 ≤ y.toInt ∧ y.toInt < panelHeight s.layout_q then
        pointResponse .DONE (pam s.layout_q x y)
      else plainResponse .CLIPPED 0] }

/-! ## PLOT -/

/-- R100: how each write mode combines a mask into a byte, bit by bit; a bit outside the mask is unchanged. -/
def Obligations.CombineRule : Prop :=
  ∀ (old m : Byte) (k : Nat), k < 8 →
    (combine .ADD old m).getLsbD k = (old.getLsbD k || m.getLsbD k) ∧
    (combine .SUBTRACT old m).getLsbD k = (old.getLsbD k && !m.getLsbD k) ∧
    (combine .INVERT old m).getLsbD k = (old.getLsbD k ^^ m.getLsbD k) ∧
    ∀ mode, m.getLsbD k = false → (combine mode old m).getLsbD k = old.getLsbD k

/-- R101: the mutators' bounds check, and that it fails only at index 0 of a guarded block. -/
def Obligations.IndexCheck : Prop :=
  ∀ (cfg : Config) (i : Index),
    (indexOK cfg i = true ↔ (if cfg.index0Guard then 0 < i.toNat else 0 ≤ i.toNat) ∧ i.toNat < 1024) ∧
    (indexOK cfg i = false ↔ cfg.index0Guard = true ∧ i = 0)

/-- R102: the sequence every PLOT follows. Off the panel: CLIPPED and nothing else. Mapped to index 0 of a guarded block:
GUARDED and nothing else. Otherwise one byte is combined with the mask, every other byte and every other field is as
before, and the response is DONE with the mapped point. -/
def Obligations.PlotSequence : Prop :=
  ∀ (mode : WriteMode) (x y : Coord) (i : Instr) (s : State), PlotsIn mode x y i →
    ((pam s.layout_q x y).valid = false →
      exec i s = .next { s with owed := s.owed ++
        [plainResponse .CLIPPED 0] }) ∧
    ((pam s.layout_q x y).valid = true → s.cfg.index0Guard = true → (pam s.layout_q x y).idx = 0 →
      exec i s = .next { s with owed := s.owed ++
        [{ status := .GUARDED, mValid := true, mIdx := 0, mMask := (pam s.layout_q x y).mask, rdata := 0 }] }) ∧
    ((pam s.layout_q x y).valid = true → (s.cfg.index0Guard = false ∨ (pam s.layout_q x y).idx ≠ 0) →
      ∃ t, exec i s = .next t ∧
        t = { s with
          fb := t.fb
          owed := s.owed ++ [pointResponse .DONE (pam s.layout_q x y)] } ∧
        memRead t.fb (pam s.layout_q x y).idx.toNat =
          combine mode (memRead s.fb (pam s.layout_q x y).idx.toNat) (pam s.layout_q x y).mask ∧
        ∀ a, a ≠ (pam s.layout_q x y).idx.toNat → memRead t.fb a = memRead s.fb a)

/-- R28, R103 to R105: a PLOT on the panel, not held off by the guard, sets, clears or toggles exactly the bits that
belong to its pixel, and leaves every other bit of the framebuffer alone. Byte 0 holds rows 0 to 7 of column 0 in FULL and
rows 0 to 3 in HALF. -/
def Obligations.PlotsActOnTheirPixel : Prop :=
  ∀ (x y : Coord) (s : State),
    0 ≤ x.toInt → x.toInt < 128 → 0 ≤ y.toInt → y.toInt < panelHeight s.layout_q →
    (s.cfg.index0Guard = false ∨ x.toInt ≠ 0 ∨ (match s.layout_q with | .FULL => 8 | .HALF => 4) ≤ y.toInt) →
    (∃ t, exec (.plotAdd x y) s = .next t ∧ ∀ (i : Index) (k : Fin 8), (fbRead t i).getLsbD k.val =
      if ownsBit s.layout_q x y i k then true else (fbRead s i).getLsbD k.val) ∧
    (∃ t, exec (.plotSub x y) s = .next t ∧ ∀ (i : Index) (k : Fin 8), (fbRead t i).getLsbD k.val =
      if ownsBit s.layout_q x y i k then false else (fbRead s i).getLsbD k.val) ∧
    (∃ t, exec (.plotInv x y) s = .next t ∧ ∀ (i : Index) (k : Fin 8), (fbRead t i).getLsbD k.val =
      if ownsBit s.layout_q x y i k then !(fbRead s i).getLsbD k.val else (fbRead s i).getLsbD k.val)

/-- R106: the bits one PLOT may change: at most the bits of its mask in its byte, which is one bit, `y & 7`, in FULL and
one adjacent pair in HALF. -/
def Obligations.PlotChangesAtMostItsMask : Prop :=
  ∀ (mode : WriteMode) (x y : Coord) (i : Instr) (s : State), PlotsIn mode x y i →
    ∃ t, exec i s = .next t ∧ ∀ (a k : Nat), (memRead t.fb a).getLsbD k ≠ (memRead s.fb a).getLsbD k →
      (pam s.layout_q x y).valid = true ∧ a = (pam s.layout_q x y).idx.toNat ∧
      (pam s.layout_q x y).mask.getLsbD k = true ∧
      (match s.layout_q with
        | .FULL => (k : Int) = y.toInt % 8
        | .HALF => (k : Int) = 2 * (y.toInt % 4) ∨ (k : Int) = 2 * (y.toInt % 4) + 1)

/-- R107 (a) to (e): the laws of the byte mutators. -/
def Obligations.CombineLaws : Prop :=
  ∀ b m : Byte,
    combine .INVERT (combine .INVERT b m) m = b ∧
    combine .SUBTRACT (combine .ADD b m) m = b &&& ~~~m ∧
    (combine .SUBTRACT (combine .ADD b m) m = b ↔ b &&& m = 0) ∧
    combine .ADD (combine .SUBTRACT b m) m = b ||| m ∧
    combine .ADD (combine .ADD b m) m = combine .ADD b m ∧
    combine .SUBTRACT (combine .SUBTRACT b m) m = combine .SUBTRACT b m ∧
    combine .INVERT (combine .ADD b m) m = b &&& ~~~m ∧
    combine .ADD (combine .INVERT b m) m = b ||| m

/-- R107 (a), (b) on the machine: PLOT.INV twice gives back the framebuffer itself; PLOT.ADD then PLOT.SUB does when no
bit of the pixel was set before. -/
def Obligations.PlotRoundTrips : Prop :=
  ∀ (x y : Coord) (s : State), s.inv = true →
    (∃ t, execAll [.plotInv x y, .plotInv x y] s = .next t ∧ t.fb = s.fb) ∧
    (fbRead s (pam s.layout_q x y).idx &&& (pam s.layout_q x y).mask = 0 →
      ∃ t, execAll [.plotAdd x y, .plotSub x y] s = .next t ∧ t.fb = s.fb)

/-- R107 (f): PLOTs to different bytes commute: either order leaves the same framebuffer. -/
def Obligations.PlotsToDifferentBytesCommute : Prop :=
  ∀ (x y x' y' : Coord) (i i' : Instr) (s : State), s.inv = true → PlotsAt x y i → PlotsAt x' y' i' →
    (pam s.layout_q x y).idx ≠ (pam s.layout_q x' y').idx →
    ∃ t u, execAll [i, i'] s = .next t ∧ execAll [i', i] s = .next u ∧ t.fb = u.fb ∧ t.layout_q = u.layout_q

/-- R8, R52, D20: with `INDEX0_GUARD` true no PLOT changes byte 0, in either layout, and WRB and CLR still do. -/
def Obligations.GuardHoldsOffPlotsOnly : Prop :=
  ∀ s : State, s.cfg.index0Guard = true →
    (∀ x y i, PlotsAt x y i → ∃ t, exec i s = .next t ∧ memRead t.fb 0 = memRead s.fb 0) ∧
    (∀ v, ∃ t, exec (.wrb 0 v) s = .next t ∧ memRead t.fb 0 = v) ∧
    ∃ t, exec .clr s = .next t ∧ memRead t.fb 0 = 0

/-! ## Framebuffer access -/

/-- R120: RDB answers DONE with the byte at its index, in `rdata` alone, and changes nothing else. -/
def Obligations.RdbReturnsTheByte : Prop :=
  ∀ (idx : Index) (s : State), ∃ r : Response,
    exec (.rdb idx) s = .next { s with owed := s.owed ++ [r] } ∧
    r.pack = (memRead s.fb idx.toNat).setWidth 29 ∧ r.status = .DONE

/-- R121: WRB overwrites all eight bits of its byte, whatever the guard and layout, leaves every other byte and field, and
answers the all-zero DONE word. -/
def Obligations.WrbOverwritesTheByte : Prop :=
  ∀ (idx : Index) (data : Byte) (s : State), ∃ t r, exec (.wrb idx data) s = .next t ∧
    t = { s with fb := t.fb, owed := s.owed ++ [r] } ∧ r.pack = 0 ∧
    memRead t.fb idx.toNat = data ∧ ∀ a, a ≠ idx.toNat → memRead t.fb a = memRead s.fb a

/-- R122: CLR leaves every byte `0x00`, which is what writing `0x00` to each index in turn leaves, and answers the
all-zero DONE word; nothing else changes. -/
def Obligations.ClrZeroesEveryByte : Prop :=
  ∀ s : State, ∃ t r, exec .clr s = .next t ∧
    t = { s with fb := t.fb, owed := s.owed ++ [r] } ∧ r.pack = 0 ∧ (∀ a, memRead t.fb a = 0) ∧
    (s.inv = true → t.fb = (List.range 1024).foldl (fun m a => memWrite m a 0) s.fb)

/-- R123: NOP answers the all-zero DONE word, after the responses of every earlier request, and changes nothing else. -/
def Obligations.NopOnlyResponds : Prop :=
  ∀ s : State, ∃ r : Response, exec .nop s = .next { s with owed := s.owed ++ [r] } ∧ r.pack = 0

/-- R48: RDB and MAP change neither FB nor the layout, and repeated they answer the same; repeating WRB, CLR, PLOT.ADD or
PLOT.SUB leaves FB as the first left it; PLOT.INV on the panel and not guarded is not idempotent, and twice it cancels. -/
def Obligations.RepeatedRequests : Prop :=
  (∀ (i : Instr) (s : State), ((∃ idx, i = .rdb idx) ∨ ∃ x y, i = .map x y) →
    ∃ t u r, exec i s = .next t ∧ exec i t = .next u ∧ t.fb = s.fb ∧ t.layout_q = s.layout_q ∧
      t.owed = s.owed ++ [r] ∧ u.owed = t.owed ++ [r]) ∧
  (∀ (i : Instr) (s : State), ((∃ idx v, i = .wrb idx v) ∨ i = .clr ∨ ∃ x y, i = .plotAdd x y ∨ i = .plotSub x y) →
    ∃ t u, exec i s = .next t ∧ exec i t = .next u ∧ u.fb = t.fb ∧ u.layout_q = t.layout_q) ∧
  ∀ (x y : Coord) (s : State), ∃ t u, exec (.plotInv x y) s = .next t ∧ exec (.plotInv x y) t = .next u ∧
    (∀ a, memRead u.fb a = memRead s.fb a) ∧
    ((pam s.layout_q x y).valid = true → (s.cfg.index0Guard = false ∨ (pam s.layout_q x y).idx ≠ 0) →
      fbRead u (pam s.layout_q x y).idx ≠ fbRead t (pam s.layout_q x y).idx)

/-- R124: WRB of every byte of a buffer, in any order, leaves FB equal to the buffer. -/
def Obligations.SetBufferReplacesEverything : Prop :=
  ∀ (s : State) (order : List Index) (B : Index → Byte), order.length = 1024 → (∀ i, i ∈ order) →
    ∃ t, execAll (setBufferRequests order B) s = .next t ∧ (∀ i, fbRead t i = B i) ∧ t.layout_q = s.layout_q

/-- R44: RDB 0 to RDB 1023 answer with the bytes of FB in ascending order, unmodified, and change nothing else. -/
def Obligations.TransmitReadsInOrder : Prop :=
  ∀ s : State, ∃ rs : List Response,
    execAll transmitRequests s = .next { s with owed := s.owed ++ rs } ∧
    rs.map Response.rdata = (List.range 1024).map (fun a => memRead s.fb a) ∧ ∀ r ∈ rs, r.status = .DONE

/-! ## Text -/

/-- R73: a request written as the rule lays it out assembles to that request. -/
def Obligations.WrittenTextAssembles : Prop :=
  ∀ i : Instr, assembleLine (textOf i) = .instr i

/-- R73: a written statement assembles to the operation it writes, and to no other: each coordinate, decimal or
hexadecimal, index and byte has its own range. A statement with any operand out of range writes no operation, and is refused
instead of truncated. That an index or a data byte may be hexadecimal too is the model's choice, which R73 does not settle
(log 15). -/
def Obligations.AssemblerRefusesOutOfRange : Prop :=
  ∀ src : Source,
    (∀ i : Instr, assembleSource src = .instr i ↔ Writes src i) ∧
    (assembleSource src = .outOfRange ↔ ¬ ∃ i : Instr, Writes src i)
end

