-- ==== Sys2Proof/Laws/Encoding.lean ====
section
/-! SUPPORT. Words and their fields: the fields of an encoded word, a word rebuilt from its fields, and everything the
decoder can read from a word. -/

namespace Sys2Proof

/-! ## The fields of an encoded word -/

theorem opOf_encodeXY (op : BitVec 3) (mode : BitVec 2) (x y : Coord) : opOf (encodeXY op mode x y) = op := by
  apply BitVec.eq_of_getLsbD_eq; intro k hk
  simp only [encodeXY, opOf, BitVec.getLsbD_append, BitVec.getLsbD_extractLsb']
  interval_cases k <;> simp

theorem modeOf_encodeXY (op : BitVec 3) (mode : BitVec 2) (x y : Coord) : modeOf (encodeXY op mode x y) = mode := by
  apply BitVec.eq_of_getLsbD_eq; intro k hk
  simp only [encodeXY, modeOf, BitVec.getLsbD_append, BitVec.getLsbD_extractLsb']
  interval_cases k <;> simp

theorem rsv0Of_encodeXY (op : BitVec 3) (mode : BitVec 2) (x y : Coord) : rsv0Of (encodeXY op mode x y) = 0 := by
  apply BitVec.eq_of_getLsbD_eq; intro k hk
  simp only [encodeXY, rsv0Of, BitVec.getLsbD_append, BitVec.getLsbD_extractLsb']
  interval_cases k <;> simp

theorem xOf_encodeXY (op : BitVec 3) (mode : BitVec 2) (x y : Coord) : xOf (encodeXY op mode x y) = x := by
  apply BitVec.eq_of_getLsbD_eq; intro k hk
  simp only [encodeXY, xOf, BitVec.getLsbD_append, BitVec.getLsbD_extractLsb']
  interval_cases k <;> simp

theorem yOf_encodeXY (op : BitVec 3) (mode : BitVec 2) (x y : Coord) : yOf (encodeXY op mode x y) = y := by
  apply BitVec.eq_of_getLsbD_eq; intro k hk
  simp only [encodeXY, yOf, BitVec.getLsbD_append, BitVec.getLsbD_extractLsb']
  interval_cases k <;> simp

theorem opOf_encodeBI (op : BitVec 3) (idx : Index) (data : Byte) : opOf (encodeBI op idx data) = op := by
  apply BitVec.eq_of_getLsbD_eq; intro k hk
  simp only [encodeBI, opOf, BitVec.getLsbD_append, BitVec.getLsbD_extractLsb']
  interval_cases k <;> simp

theorem modeOf_encodeBI (op : BitVec 3) (idx : Index) (data : Byte) : modeOf (encodeBI op idx data) = 0 := by
  apply BitVec.eq_of_getLsbD_eq; intro k hk
  simp only [encodeBI, modeOf, BitVec.getLsbD_append, BitVec.getLsbD_extractLsb']
  interval_cases k <;> simp

theorem rsv0Of_encodeBI (op : BitVec 3) (idx : Index) (data : Byte) : rsv0Of (encodeBI op idx data) = 0 := by
  apply BitVec.eq_of_getLsbD_eq; intro k hk
  simp only [encodeBI, rsv0Of, BitVec.getLsbD_append, BitVec.getLsbD_extractLsb']
  interval_cases k <;> simp

theorem rsv1Of_encodeBI (op : BitVec 3) (idx : Index) (data : Byte) : rsv1Of (encodeBI op idx data) = 0 := by
  apply BitVec.eq_of_getLsbD_eq; intro k hk
  simp only [encodeBI, rsv1Of, BitVec.getLsbD_append, BitVec.getLsbD_extractLsb']
  interval_cases k <;> simp

theorem idxOf_encodeBI (op : BitVec 3) (idx : Index) (data : Byte) : idxOf (encodeBI op idx data) = idx := by
  apply BitVec.eq_of_getLsbD_eq; intro k hk
  simp only [encodeBI, idxOf, BitVec.getLsbD_append, BitVec.getLsbD_extractLsb']
  interval_cases k <;> simp

theorem dataOf_encodeBI (op : BitVec 3) (idx : Index) (data : Byte) : dataOf (encodeBI op idx data) = data := by
  apply BitVec.eq_of_getLsbD_eq; intro k hk
  simp only [encodeBI, dataOf, BitVec.getLsbD_append, BitVec.getLsbD_extractLsb']
  interval_cases k <;> simp

/-! ## A word from its fields -/

/-- The bits of a slice that is 0. -/
theorem getLsbD_of_slice_zero {w : RequestWord} {start len : Nat} (h : w.extractLsb' start len = 0) {j : Nat}
    (hj : j < len) : w.getLsbD (start + j) = false := by
  simpa [hj] using congrArg (fun v => v.getLsbD j) h

theorem encodeXY_fields {w : RequestWord} (h0 : rsv0Of w = 0) :
    encodeXY (opOf w) (modeOf w) (xOf w) (yOf w) = w := by
  have b0 := getLsbD_of_slice_zero (j := 0) h0 (by decide)
  have b1 := getLsbD_of_slice_zero (j := 1) h0 (by decide)
  have b2 := getLsbD_of_slice_zero (j := 2) h0 (by decide)
  apply BitVec.eq_of_getLsbD_eq; intro k hk
  simp only [encodeXY, BitVec.getLsbD_append, opOf, modeOf, xOf, yOf, BitVec.getLsbD_extractLsb']
  interval_cases k <;> simp_all

theorem encodeBI_fields {w : RequestWord} (hm : modeOf w = 0) (h0 : rsv0Of w = 0) (h1 : rsv1Of w = 0) :
    encodeBI (opOf w) (idxOf w) (dataOf w) = w := by
  have a0 := getLsbD_of_slice_zero (j := 0) hm (by decide)
  have a1 := getLsbD_of_slice_zero (j := 1) hm (by decide)
  have b0 := getLsbD_of_slice_zero (j := 0) h0 (by decide)
  have b1 := getLsbD_of_slice_zero (j := 1) h0 (by decide)
  have b2 := getLsbD_of_slice_zero (j := 2) h0 (by decide)
  apply BitVec.eq_of_getLsbD_eq; intro k hk
  simp only [encodeBI, BitVec.getLsbD_append, opOf, idxOf, dataOf, BitVec.getLsbD_extractLsb']
  by_cases hc : 18 ≤ k ∧ k < 32
  · have hz := getLsbD_of_slice_zero (j := k - 18) h1 (by omega)
    rw [show 18 + (k - 18) = k by omega] at hz
    obtain ⟨_, _⟩ := hc
    interval_cases k <;> simp_all
  · interval_cases k <;> simp_all

theorem encodeZ_fields {w : RequestWord} (hm : modeOf w = 0) (h0 : rsv0Of w = 0) (hz : operandOf w = 0) :
    encodeZ (opOf w) = w := by
  have a0 := getLsbD_of_slice_zero (j := 0) hm (by decide)
  have a1 := getLsbD_of_slice_zero (j := 1) hm (by decide)
  have b0 := getLsbD_of_slice_zero (j := 0) h0 (by decide)
  have b1 := getLsbD_of_slice_zero (j := 1) h0 (by decide)
  have b2 := getLsbD_of_slice_zero (j := 2) h0 (by decide)
  apply BitVec.eq_of_getLsbD_eq; intro k hk
  simp only [encodeZ, BitVec.getLsbD_append, opOf, BitVec.getLsbD_extractLsb']
  by_cases hc : k < 32
  · have hb := getLsbD_of_slice_zero (j := k) hz hc
    rw [Nat.zero_add] at hb
    simp [hb]; omega
  · interval_cases k <;> simp_all

/-! ## Everything the decoder can read -/

theorem op_values (o : BitVec 3) : o = 0 ∨ o = 1 ∨ o = 2 ∨ o = 3 ∨ o = 4 ∨ o = 5 ∨ o = 6 ∨ o = 7 := by
  revert o; decide

theorem mode_values (m : BitVec 2) : m = 0 ∨ m = 1 ∨ m = 2 ∨ m = 3 := by revert m; decide

theorem decodeZ_eq_instr (w : RequestWord) (j i : Instr) :
    decodeZ w j = .instr i ↔ operandOf w = 0 ∧ i = j := by
  unfold decodeZ; split <;> simp_all [eq_comm]

theorem decodeRdb_eq_instr (w : RequestWord) (i : Instr) :
    decodeRdb w = .instr i ↔ rsv1Of w = 0 ∧ dataOf w = 0 ∧ i = .rdb (idxOf w) := by
  unfold decodeRdb; split <;> [split; skip] <;> simp_all [eq_comm]

theorem decodeWrb_eq_instr (w : RequestWord) (i : Instr) :
    decodeWrb w = .instr i ↔ rsv1Of w = 0 ∧ i = .wrb (idxOf w) (dataOf w) := by
  unfold decodeWrb; split <;> simp_all [eq_comm]

/-- The fields of a word that decodes to an operation, and the operation. -/
theorem decode_eq_instr {w : RequestWord} {i : Instr} (h : decode w = .instr i) :
    rsv0Of w = 0 ∧
    ((opOf w = 0 ∧ modeOf w = 0 ∧ operandOf w = 0 ∧ i = .nop) ∨
     (opOf w = 1 ∧ modeOf w = 0 ∧ i = .map (xOf w) (yOf w)) ∨
     (opOf w = 2 ∧ modeOf w = 0 ∧ i = .plotAdd (xOf w) (yOf w)) ∨
     (opOf w = 2 ∧ modeOf w = 1 ∧ i = .plotSub (xOf w) (yOf w)) ∨
     (opOf w = 2 ∧ modeOf w = 2 ∧ i = .plotInv (xOf w) (yOf w)) ∨
     (opOf w = 3 ∧ modeOf w = 0 ∧ rsv1Of w = 0 ∧ dataOf w = 0 ∧ i = .rdb (idxOf w)) ∨
     (opOf w = 4 ∧ modeOf w = 0 ∧ rsv1Of w = 0 ∧ i = .wrb (idxOf w) (dataOf w)) ∨
     (opOf w = 5 ∧ modeOf w = 0 ∧ operandOf w = 0 ∧ i = .clr)) := by
  unfold decode at h
  split at h; · cases h
  split at h; · cases h
  split at h; · cases h
  split at h; · cases h
  rename_i h1 h2 h3 h4
  refine ⟨by simpa using h4, ?_⟩
  obtain ho | ho | ho | ho | ho | ho | ho | ho := op_values (opOf w) <;>
  obtain hm | hm | hm | hm := mode_values (modeOf w) <;>
  simp [ho, hm, decodeByOp, decodePlot, decodeZ_eq_instr, decodeRdb_eq_instr, decodeWrb_eq_instr] at h h1 h2 h3 <;>
  simp [ho, hm] <;> (first | exact h | exact h.symm)

end Sys2Proof
end

