-- ==== Sys2Proof/Laws/Mapper.lean ====
section
/-! SUPPORT. The mapper: when a point is on the panel, and what the index and the mask are then, as numbers and bit by
bit. -/

namespace Sys2Proof.Machine

theorem onPanel_iff (layout : Layout) (x y : Coord) :
    onPanel layout x y = true ↔
      0 ≤ x.toInt ∧ x.toInt < 128 ∧ 0 ≤ y.toInt ∧ y.toInt < panelHeight layout := by
  exact decide_eq_true_iff

theorem panelHeight_le (layout : Layout) : panelHeight layout ≤ 64 := by cases layout <;> decide

theorem pam_of_onPanel {layout : Layout} {x y : Coord} (h : onPanel layout x y = true) :
    pam layout x y = mapOnPanel layout x.toInt.toNat y.toInt.toNat := by simp [pam, h]

theorem pam_of_offPanel {layout : Layout} {x y : Coord} (h : onPanel layout x y = false) :
    pam layout x y = { valid := false, idx := 0, mask := 0 } := by simp [pam, h]

@[simp] theorem mapOnPanel_valid (layout : Layout) (x y : Nat) : (mapOnPanel layout x y).valid = true := by
  cases layout <;> rfl

@[simp] theorem pam_valid (layout : Layout) (x y : Coord) : (pam layout x y).valid = onPanel layout x y := by
  cases h : onPanel layout x y <;> simp [pam, h]

theorem byteIndex_toNat {x r : Nat} (hx : x < 128) (hr : r < 64) : (byteIndex x r).toNat = x + r / 8 * 128 := by
  simp only [byteIndex, panelWidth, BitVec.toNat_ofNat]
  omega

theorem bitMask_getLsbD (r k : Nat) : (bitMask r).getLsbD k = decide (k = r % 8) := by
  have hr : r % 8 < 8 := Nat.mod_lt _ (by decide)
  have hm : bitMask r = BitVec.twoPow 8 (r % 8) := by simp [bitMask, BitVec.twoPow]
  rw [hm, BitVec.getLsbD_twoPow]
  by_cases h : r % 8 = k
  · simp [h.symm, hr]
  · simp [h, Ne.symm h]

theorem pairMask_getLsbD (m : Byte) (k : Nat) : (pairMask m).getLsbD k = (m.getLsbD k || m.getLsbD (k + 1)) := by
  simp [pairMask, Nat.add_comm]

/-- The two bits of a HALF mask (R87): the doubled row's bit and the one below it. -/
theorem halfMask_getLsbD (y k : Nat) :
    (pairMask (bitMask (doubledRow y))).getLsbD k = decide (k / 2 = y % 4) := by
  rw [pairMask_getLsbD, bitMask_getLsbD, bitMask_getLsbD, doubledRow]
  by_cases h : k / 2 = y % 4
  · rw [decide_eq_true h]
    rcases Nat.mod_two_eq_zero_or_one k with h2 | h2
    · have : k + 1 = (2 * y + 1) % 8 := by omega
      simp [this]
    · have : k = (2 * y + 1) % 8 := by omega
      simp [← this]
  · have h1 : ¬ k = (2 * y + 1) % 8 := by omega
    have h2 : ¬ k + 1 = (2 * y + 1) % 8 := by omega
    simp [h, h1, h2]

/-- The bounds check in words (R101): it fails at index 0 of a guarded block and nowhere else. -/
theorem indexOK_iff (cfg : Config) (i : Index) :
    indexOK cfg i = true ↔ (cfg.index0Guard = false ∨ i ≠ 0) := by
  have hi : i.toNat < framebufferSize := i.isLt
  have h0 : 0 < i.toNat ↔ i ≠ 0 := by
    rw [Nat.pos_iff_ne_zero, ne_eq, ne_eq, ← BitVec.toNat_inj]; rfl
  cases hg : cfg.index0Guard <;> simp [indexOK, hg, hi, h0]

end Sys2Proof.Machine
end

