-- ==== Sys2Proof/Laws/State.lean ====
section
/-! SUPPORT. What each update of the state leaves in each field: one lemma per field, true by unfolding once. -/

namespace Sys2Proof.Machine

section
variable (s : State) (e : Edge) (i : Index) (v m rd : Byte) (st : Status) (b : Bool)

@[simp] theorem respond_cfg : (respond st rd b i m s).cfg = s.cfg := rfl
@[simp] theorem respond_layout_q : (respond st rd b i m s).layout_q = s.layout_q := rfl
@[simp] theorem respond_fb : (respond st rd b i m s).fb = s.fb := rfl
@[simp] theorem respond_owed : (respond st rd b i m s).owed =
    s.owed ++ [{ status := st, mValid := b, mIdx := i, mMask := m, rdata := rd }] := rfl
@[simp] theorem respond_rsp : (respond st rd b i m s).rsp = s.rsp := rfl
@[simp] theorem respond_presented : (respond st rd b i m s).presented = s.presented := rfl
@[simp] theorem respond_resetStrap : (respond st rd b i m s).resetStrap = s.resetStrap := rfl
@[simp] theorem respond_draws : (respond st rd b i m s).draws = s.draws := rfl
@[simp] theorem respond_edges : (respond st rd b i m s).edges = s.edges := rfl

@[simp] theorem fbWrite_cfg : (fbWrite i v s).cfg = s.cfg := rfl
@[simp] theorem fbWrite_layout_q : (fbWrite i v s).layout_q = s.layout_q := rfl
@[simp] theorem fbWrite_fb : (fbWrite i v s).fb = memWrite s.fb i.toNat v := rfl
@[simp] theorem fbWrite_owed : (fbWrite i v s).owed = s.owed := rfl
@[simp] theorem fbWrite_rsp : (fbWrite i v s).rsp = s.rsp := rfl
@[simp] theorem fbWrite_presented : (fbWrite i v s).presented = s.presented := rfl
@[simp] theorem fbWrite_resetStrap : (fbWrite i v s).resetStrap = s.resetStrap := rfl
@[simp] theorem fbWrite_draws : (fbWrite i v s).draws = s.draws := rfl
@[simp] theorem fbWrite_edges : (fbWrite i v s).edges = s.edges := rfl

@[simp] theorem fbClear_cfg : (fbClear s).cfg = s.cfg := rfl
@[simp] theorem fbClear_layout_q : (fbClear s).layout_q = s.layout_q := rfl
@[simp] theorem fbClear_fb : (fbClear s).fb = [] := rfl
@[simp] theorem fbClear_owed : (fbClear s).owed = s.owed := rfl
@[simp] theorem fbClear_rsp : (fbClear s).rsp = s.rsp := rfl
@[simp] theorem fbClear_presented : (fbClear s).presented = s.presented := rfl
@[simp] theorem fbClear_resetStrap : (fbClear s).resetStrap = s.resetStrap := rfl
@[simp] theorem fbClear_draws : (fbClear s).draws = s.draws := rfl
@[simp] theorem fbClear_edges : (fbClear s).edges = s.edges := rfl

@[simp] theorem resetEdge_cfg : (resetEdge e s).cfg = s.cfg := rfl
@[simp] theorem resetEdge_layout_q : (resetEdge e s).layout_q =
    latchedLayout (s.resetStrap.sample (layoutOfStrap e.strap)) (layoutOfStrap e.strap) s.draws := rfl
@[simp] theorem resetEdge_resetStrap :
    (resetEdge e s).resetStrap = s.resetStrap.sample (layoutOfStrap e.strap) := rfl
@[simp] theorem resetEdge_draws :
    (resetEdge e s).draws = drawsAfter (s.resetStrap.sample (layoutOfStrap e.strap)) s.draws := rfl
@[simp] theorem resetEdge_fb : (resetEdge e s).fb = [] := rfl
@[simp] theorem resetEdge_owed : (resetEdge e s).owed = [] := rfl
@[simp] theorem resetEdge_rsp : (resetEdge e s).rsp = none := rfl
@[simp] theorem resetEdge_presented : (resetEdge e s).presented = none := rfl
@[simp] theorem resetEdge_edges : (resetEdge e s).edges = s.edges := rfl

/-- What the strap has shown after one more sample: this layout only, where it was outside reset or had shown this layout
only; else it has moved. -/
theorem sample_of_steady {h : ResetStrap} {l : Layout} (hs : h = .outside ∨ h = .steady l) : h.sample l = .steady l := by
  rcases hs with rfl | rfl
  · rfl
  · simp [ResetStrap.sample]

theorem sample_of_moved {h : ResetStrap} {l : Layout} (hs : ¬ (h = .outside ∨ h = .steady l)) : h.sample l = .moved := by
  cases h with
  | outside => exact absurd (.inl rfl) hs
  | steady k => exact if_neg fun hk => hs (.inr (by rw [hk]))
  | moved => rfl

/-- Everything a reset edge can do: it latches a strap that has not moved in this reset, or it latches a free value. -/
theorem resetEdge_cases :
    ((s.resetStrap = .outside ∨ s.resetStrap = .steady (layoutOfStrap e.strap)) ∧
      resetEdge e s = { State.afterReset s.cfg (layoutOfStrap e.strap) with draws := s.draws, edges := s.edges }) ∨
    (¬ (s.resetStrap = .outside ∨ s.resetStrap = .steady (layoutOfStrap e.strap)) ∧
      resetEdge e s = { State.afterReset s.cfg (Config.freeLayout s.draws) with
        resetStrap := .moved, draws := s.draws + 1, edges := s.edges }) := by
  by_cases h : s.resetStrap = .outside ∨ s.resetStrap = .steady (layoutOfStrap e.strap)
  · exact .inl ⟨h, by simp only [resetEdge, sample_of_steady h]; rfl⟩
  · exact .inr ⟨h, by simp only [resetEdge, sample_of_moved h]; rfl⟩

/-- Everything the answering side of an edge can do: the oldest response owed leaves for `rsp`, or `rsp` is empty. -/
theorem answerOldest_cases :
    (∃ r rest, e.answer = true ∧ s.owed = r :: rest ∧
      answerOldest e s = { s with owed := rest, rsp := some r.pack }) ∨
    ((e.answer = false ∨ s.owed = []) ∧ answerOldest e s = { s with rsp := none }) := by
  unfold answerOldest
  cases ha : e.answer
  · exact .inr ⟨.inl rfl, rfl⟩
  · cases ho : s.owed with
    | nil => exact .inr ⟨.inr rfl, rfl⟩
    | cons r rest => exact .inl ⟨r, rest, rfl, rfl, rfl⟩

@[simp] theorem answerOldest_cfg : (answerOldest e s).cfg = s.cfg := by
  obtain ⟨r, rest, -, -, h⟩ | ⟨-, h⟩ := answerOldest_cases s e <;> rw [h]
@[simp] theorem answerOldest_layout_q : (answerOldest e s).layout_q = s.layout_q := by
  obtain ⟨r, rest, -, -, h⟩ | ⟨-, h⟩ := answerOldest_cases s e <;> rw [h]
@[simp] theorem answerOldest_fb : (answerOldest e s).fb = s.fb := by
  obtain ⟨r, rest, -, -, h⟩ | ⟨-, h⟩ := answerOldest_cases s e <;> rw [h]
@[simp] theorem answerOldest_draws : (answerOldest e s).draws = s.draws := by
  obtain ⟨r, rest, -, -, h⟩ | ⟨-, h⟩ := answerOldest_cases s e <;> rw [h]
@[simp] theorem answerOldest_edges : (answerOldest e s).edges = s.edges := by
  obtain ⟨r, rest, -, -, h⟩ | ⟨-, h⟩ := answerOldest_cases s e <;> rw [h]

@[simp] theorem acceptState_cfg : (acceptState e s).cfg = s.cfg := answerOldest_cfg s e
@[simp] theorem acceptState_layout_q : (acceptState e s).layout_q = s.layout_q := answerOldest_layout_q s e
@[simp] theorem acceptState_fb : (acceptState e s).fb = s.fb := answerOldest_fb s e
@[simp] theorem acceptState_owed : (acceptState e s).owed = (answerOldest e s).owed := rfl
@[simp] theorem acceptState_rsp : (acceptState e s).rsp = (answerOldest e s).rsp := rfl
@[simp] theorem acceptState_presented : (acceptState e s).presented = none := rfl
@[simp] theorem acceptState_resetStrap : (acceptState e s).resetStrap = .outside := rfl
@[simp] theorem acceptState_draws : (acceptState e s).draws = s.draws := answerOldest_draws s e
@[simp] theorem acceptState_edges : (acceptState e s).edges = s.edges := answerOldest_edges s e

@[simp] theorem waitEdge_cfg : (waitEdge e s).cfg = s.cfg := answerOldest_cfg s e
@[simp] theorem waitEdge_layout_q : (waitEdge e s).layout_q = s.layout_q := answerOldest_layout_q s e
@[simp] theorem waitEdge_fb : (waitEdge e s).fb = s.fb := answerOldest_fb s e
@[simp] theorem waitEdge_owed : (waitEdge e s).owed = (answerOldest e s).owed := rfl
@[simp] theorem waitEdge_rsp : (waitEdge e s).rsp = (answerOldest e s).rsp := rfl
@[simp] theorem waitEdge_presented :
    (waitEdge e s).presented = if e.reqValid then some e.req else none := rfl
@[simp] theorem waitEdge_resetStrap : (waitEdge e s).resetStrap = .outside := rfl
@[simp] theorem waitEdge_draws : (waitEdge e s).draws = s.draws := answerOldest_draws s e
@[simp] theorem waitEdge_edges : (waitEdge e s).edges = s.edges := answerOldest_edges s e

end

/-- Reading depends on the framebuffer alone. -/
theorem fbRead_congr {s t : State} (h : s.fb = t.fb) (i : Index) : fbRead s i = fbRead t i := by
  unfold fbRead; rw [h]

@[simp] theorem fbRead_respond (s : State) (st : Status) (rd m : Byte) (b : Bool) (i j : Index) :
    fbRead (respond st rd b i m s) j = fbRead s j := rfl

end Sys2Proof.Machine
end

