-- ==== Sys2Proof/Laws/Memory.lean ====
section
/-! SUPPORT. The framebuffer as data: read after write, the canonical form and its operations, and equality of canonical
memories by their bytes. -/

namespace Sys2Proof.Machine

@[simp] theorem memRead_nil (a : Nat) : memRead [] a = 0 := rfl

theorem memRead_memErase_same (m : Memory) (a : Nat) : memRead (memErase m a) a = 0 := by
  induction m with
  | nil => rfl
  | cons c m ih =>
    obtain ⟨b, v⟩ := c
    by_cases h : a = b <;> simp [memErase, memRead, h, ih]
    simpa [h] using ih

theorem memRead_memErase_other (m : Memory) {a c : Nat} (h : c ≠ a) :
    memRead (memErase m a) c = memRead m c := by
  induction m with
  | nil => rfl
  | cons d m ih =>
    obtain ⟨b, v⟩ := d
    by_cases hab : a = b
    · subst hab; simp [memErase, memRead, h, ih]
    · by_cases hcb : c = b <;> simp [memErase, memRead, hab, hcb, ih]

/-- No entry stands at an address. -/
theorem memErase_absent (m : Memory) (a : Nat) : ∀ c ∈ memErase m a, c.1 ≠ a := by
  induction m with
  | nil => simp [memErase]
  | cons d m ih =>
    obtain ⟨b, v⟩ := d
    by_cases hab : a = b
    · simp only [memErase, hab, if_true]
      exact hab ▸ ih
    · simp only [memErase, hab, if_false, List.mem_cons]
      rintro c (rfl | hc)
      · exact fun h => hab h.symm
      · exact ih c hc

theorem memRead_memInsert_same (m : Memory) (a : Nat) (v : Byte) (h : ∀ c ∈ m, c.1 ≠ a) :
    memRead (memInsert m a v) a = v := by
  induction m with
  | nil => simp [memInsert, memRead]
  | cons d m ih =>
    obtain ⟨b, u⟩ := d
    have hb : a ≠ b := fun hab => h (b, u) (by simp) hab.symm
    by_cases hlt : a < b
    · simp [memInsert, memRead, hlt]
    · simp only [memInsert, hlt, if_false, memRead, hb]
      exact ih fun c hc => h c (by simp [hc])

theorem memRead_memInsert_other (m : Memory) {a c : Nat} (v : Byte) (h : c ≠ a) :
    memRead (memInsert m a v) c = memRead m c := by
  induction m with
  | nil => simp [memInsert, memRead, h]
  | cons d m ih =>
    obtain ⟨b, u⟩ := d
    by_cases hlt : a < b
    · simp [memInsert, memRead, hlt, h]
    · by_cases hcb : c = b <;> simp [memInsert, memRead, hlt, hcb, ih]

/-- A read after a write to the same address gives the value written. -/
@[simp] theorem memRead_memWrite_same (m : Memory) (a : Nat) (v : Byte) : memRead (memWrite m a v) a = v := by
  unfold memWrite
  split
  · rename_i h; rw [h]; exact memRead_memErase_same m a
  · exact memRead_memInsert_same _ a v (memErase_absent m a)

/-- A write leaves every other address alone. -/
theorem memRead_memWrite_other (m : Memory) {a c : Nat} (v : Byte) (h : c ≠ a) :
    memRead (memWrite m a v) c = memRead m c := by
  unfold memWrite
  split
  · exact memRead_memErase_other m h
  · rw [memRead_memInsert_other _ v h, memRead_memErase_other m h]

theorem memRead_memWrite (m : Memory) (a c : Nat) (v : Byte) :
    memRead (memWrite m a v) c = if c = a then v else memRead m c := by
  by_cases h : c = a
  · subst h; simp
  · simp [h, memRead_memWrite_other m v h]

/-! ## The canonical form -/

/-- A lower bound on the first listed address, or none. -/
def Above (lo : Option Nat) (b : Nat) : Prop := ∀ l, lo = some l → l < b

theorem memWfAbove_cons (lo : Option Nat) (b : Nat) (v : Byte) (m : Memory) :
    memWfAbove lo ((b, v) :: m) = true ↔
      Above lo b ∧ b < framebufferSize ∧ v ≠ 0 ∧ memWfAbove (some b) m = true := by
  cases lo <;> simp [memWfAbove, Above, and_assoc]

@[simp] theorem memWfAbove_nil (lo : Option Nat) : memWfAbove lo [] = true := by cases lo <;> rfl

@[simp] theorem Memory.wf_nil : Memory.wf [] = true := rfl

theorem memWfAbove_weaken {lo lo' : Option Nat} {m : Memory} (h : memWfAbove lo m = true)
    (hl : ∀ b, Above lo b → Above lo' b) : memWfAbove lo' m = true := by
  cases m with
  | nil => simp
  | cons c m =>
    obtain ⟨b, v⟩ := c
    rw [memWfAbove_cons] at h ⊢
    exact ⟨hl b h.1, h.2⟩

theorem memErase_wfAbove {m : Memory} : ∀ {lo : Option Nat} (a : Nat),
    memWfAbove lo m = true → memWfAbove lo (memErase m a) = true := by
  induction m with
  | nil => simp [memErase]
  | cons c m ih =>
    obtain ⟨b, v⟩ := c
    intro lo a h
    rw [memWfAbove_cons] at h
    obtain ⟨h1, h2, h3, h4⟩ := h
    by_cases hab : a = b
    · simp only [memErase, hab, if_true]
      refine memWfAbove_weaken (ih b h4) fun d hd l hl => ?_
      exact Nat.lt_trans (h1 l hl) (hd b rfl)
    · simp only [memErase, hab, if_false, memWfAbove_cons]
      exact ⟨h1, h2, h3, ih a h4⟩

theorem memInsert_wfAbove {m : Memory} : ∀ {lo : Option Nat} {a : Nat} {v : Byte},
    memWfAbove lo m = true → Above lo a → a < framebufferSize → v ≠ 0 → (∀ c ∈ m, c.1 ≠ a) →
    memWfAbove lo (memInsert m a v) = true := by
  induction m with
  | nil =>
    intro lo a v _ hl ha hv _
    simp only [memInsert, memWfAbove_cons]
    exact ⟨hl, ha, hv, by simp⟩
  | cons c m ih =>
    obtain ⟨b, u⟩ := c
    intro lo a v h hl ha hv hab
    rw [memWfAbove_cons] at h
    obtain ⟨h1, h2, h3, h4⟩ := h
    by_cases hlt : a < b
    · simp only [memInsert, hlt, if_true, memWfAbove_cons]
      exact ⟨hl, ha, hv, fun l hl' => by cases hl'; exact hlt, h2, h3, h4⟩
    · have hne : b ≠ a := hab (b, u) (by simp)
      simp only [memInsert, hlt, if_false, memWfAbove_cons]
      refine ⟨h1, h2, h3, ih h4 (fun l hl' => ?_) ha hv fun c hc => hab c (by simp [hc])⟩
      cases hl'; omega

/-- Every write inside the framebuffer keeps the canonical form. -/
theorem memWrite_wf {m : Memory} {a : Nat} (v : Byte) (h : Memory.wf m = true) (ha : a < framebufferSize) :
    Memory.wf (memWrite m a v) = true := by
  unfold memWrite Memory.wf
  have he := memErase_wfAbove a h
  split
  · exact he
  · rename_i hv
    exact memInsert_wfAbove he (fun l hl => by cases hl) ha hv (memErase_absent m a)

theorem index_lt_framebufferSize (i : Index) : i.toNat < framebufferSize := i.isLt

/-- `FB[i] <- v` keeps the canonical form: an index always names a byte (R40). -/
theorem fbWrite_wf {s : State} (i : Index) (v : Byte) (h : Memory.wf s.fb = true) :
    Memory.wf (fbWrite i v s).fb = true :=
  memWrite_wf v h (index_lt_framebufferSize i)

/-- Below the first listed address everything reads `0x00`. -/
theorem memRead_below {m : Memory} : ∀ {l a : Nat}, memWfAbove (some l) m = true → a ≤ l → memRead m a = 0 := by
  induction m with
  | nil => intros; rfl
  | cons c m ih =>
    obtain ⟨b, v⟩ := c
    intro l a h ha
    rw [memWfAbove_cons] at h
    have hlb : l < b := h.1 l rfl
    have hne : a ≠ b := by omega
    simp only [memRead, hne, if_false]
    exact ih h.2.2.2 (by omega)

theorem memWfAbove_ext {m : Memory} : ∀ {m' : Memory} {lo lo' : Option Nat}, memWfAbove lo m = true →
    memWfAbove lo' m' = true → (∀ a, memRead m a = memRead m' a) → m = m' := by
  induction m with
  | nil =>
    intro m' lo lo' _ h' heq
    cases m' with
    | nil => rfl
    | cons c m' =>
      obtain ⟨b, v⟩ := c
      rw [memWfAbove_cons] at h'
      have := heq b
      simp only [memRead, if_true] at this
      exact absurd this.symm h'.2.2.1
  | cons c m ih =>
    obtain ⟨b, v⟩ := c
    intro m' lo lo' h h' heq
    rw [memWfAbove_cons] at h
    obtain ⟨-, -, hv, hm⟩ := h
    cases m' with
    | nil =>
      have := heq b
      simp only [memRead, if_true] at this
      exact absurd this hv
    | cons c' m' =>
      obtain ⟨b', v'⟩ := c'
      rw [memWfAbove_cons] at h'
      obtain ⟨-, -, hv', hm'⟩ := h'
      have hbb : b = b' := by
        rcases Nat.lt_trichotomy b b' with hlt | he | hgt
        · have := heq b
          have hne : b ≠ b' := by omega
          simp only [memRead, if_true, hne, if_false] at this
          rw [memRead_below hm' (by omega)] at this
          exact absurd this hv
        · exact he
        · have := heq b'
          have hne : b' ≠ b := by omega
          simp only [memRead, if_true, hne, if_false] at this
          rw [memRead_below hm (by omega)] at this
          exact absurd this.symm hv'
      subst hbb
      have hvv : v = v' := by simpa [memRead] using heq b
      subst hvv
      refine congrArg _ (ih hm hm' fun a => ?_)
      rcases Nat.lt_or_ge b a with hlt | hge
      · have hne : a ≠ b := by omega
        simpa [memRead, hne] using heq a
      · rw [memRead_below hm hge, memRead_below hm' hge]

/-- Canonical memories with the same bytes are the same list. -/
theorem Memory.wf_ext {m m' : Memory} (h : Memory.wf m = true) (h' : Memory.wf m' = true)
    (heq : ∀ a, memRead m a = memRead m' a) : m = m' :=
  memWfAbove_ext h h' heq

/-- Outside the framebuffer nothing is listed. -/
theorem memRead_outside {m : Memory} : ∀ {lo : Option Nat} {a : Nat}, memWfAbove lo m = true →
    framebufferSize ≤ a → memRead m a = 0 := by
  induction m with
  | nil => intros; rfl
  | cons c m ih =>
    obtain ⟨b, v⟩ := c
    intro lo a h ha
    rw [memWfAbove_cons] at h
    have hne : a ≠ b := by have := h.2.1; omega
    simp only [memRead, hne, if_false]
    exact ih h.2.2.2 ha

/-! ## Through the state -/

@[simp] theorem fbRead_fbWrite_same (s : State) (i : Index) (v : Byte) : fbRead (fbWrite i v s) i = v :=
  memRead_memWrite_same s.fb i.toNat v

theorem fbRead_fbWrite_other (s : State) {i j : Index} (v : Byte) (h : j ≠ i) :
    fbRead (fbWrite i v s) j = fbRead s j :=
  memRead_memWrite_other s.fb v fun he => h (BitVec.eq_of_toNat_eq he)

theorem fbRead_fbWrite (s : State) (i j : Index) (v : Byte) :
    fbRead (fbWrite i v s) j = if j = i then v else fbRead s j := by
  by_cases h : j = i
  · subst h; simp
  · simp [h, fbRead_fbWrite_other s v h]

@[simp] theorem fbRead_fbClear (s : State) (j : Index) : fbRead (fbClear s) j = 0 := rfl

end Sys2Proof.Machine
end

