-- ==== Sys2Proof/Laws/Exec.lean ====
section
/-! SUPPORT. Everything one operation, one request word and one step can do, each said once. -/

namespace Sys2Proof.Machine

/-- The operations that store to byte `j` (R102, R121): WRB of that index, or a PLOT whose point is on the panel, is
mapped there and passes the bounds check. -/
def StoresTo (i : Instr) (s : State) (j : Index) : Prop :=
  (∃ v, i = .wrb j v) ∨
  ∃ x y, (i = .plotAdd x y ∨ i = .plotSub x y ∨ i = .plotInv x y) ∧
    onPanel s.layout_q x y = true ∧ (pam s.layout_q x y).idx = j ∧ indexOK s.cfg j = true

/-- Everything a PLOT can do (R102). -/
theorem plot_cases (mode : WriteMode) (x y : Coord) (s : State) :
    (onPanel s.layout_q x y = false ∧ plot mode x y s = respond .CLIPPED 0 false 0 0 s) ∨
    (onPanel s.layout_q x y = true ∧ indexOK s.cfg (pam s.layout_q x y).idx = false ∧
      plot mode x y s = respond .GUARDED 0 true (pam s.layout_q x y).idx (pam s.layout_q x y).mask s) ∨
    (onPanel s.layout_q x y = true ∧ indexOK s.cfg (pam s.layout_q x y).idx = true ∧
      plot mode x y s = respond .DONE 0 true (pam s.layout_q x y).idx (pam s.layout_q x y).mask
        (fbWrite (pam s.layout_q x y).idx
          (combine mode (fbRead s (pam s.layout_q x y).idx) (pam s.layout_q x y).mask) s)) := by
  cases h : onPanel s.layout_q x y
  · exact .inl ⟨rfl, by simp [plot, h]⟩
  · cases hi : indexOK s.cfg (pam s.layout_q x y).idx
    · exact .inr (.inl ⟨rfl, rfl, by simp [plot, h, hi]⟩)
    · exact .inr (.inr ⟨rfl, rfl, by simp [plot, h, hi]⟩)

/-- What an operation does: it appends one well-shaped response to those owed and touches nothing else, or it also stores
one byte, or it is CLR and empties the framebuffer. -/
def ExecShape (i : Instr) (s : State) : Prop :=
  ∃ r : Response, r.wellShaped = true ∧
    (exec i s = .next { s with owed := s.owed ++ [r] } ∨
     (r.status = .DONE ∧ ∃ j v, StoresTo i s j ∧
       exec i s = .next { s with fb := memWrite s.fb j.toNat v, owed := s.owed ++ [r] }) ∨
     (r.status = .DONE ∧ i = .clr ∧ exec i s = .next { s with fb := [], owed := s.owed ++ [r] }))

theorem execShape_of_plot {i : Instr} {s : State} (mode : WriteMode) {x y : Coord}
    (hi : i = .plotAdd x y ∨ i = .plotSub x y ∨ i = .plotInv x y) (he : exec i s = .next (plot mode x y s)) :
    ExecShape i s := by
  obtain ⟨h1, h⟩ | ⟨h1, h2, h⟩ | ⟨h1, h2, h⟩ := plot_cases mode x y s <;> rw [h] at he
  · exact ⟨_, by decide, .inl he⟩
  · refine ⟨_, ?_, .inl he⟩
    have h0 : (pam s.layout_q x y).idx = 0 :=
      Decidable.byContradiction fun hn => by
        have hok := (indexOK_iff s.cfg _).2 (.inr hn)
        simp [h2] at hok
    simp [Response.wellShaped, h0]
  · exact ⟨_, by simp [Response.wellShaped], .inr (.inl ⟨rfl, _, _, .inr ⟨x, y, hi, h1, rfl, h2⟩, he⟩)⟩

/-- Every operation answers a next state, of that shape. -/
theorem exec_cases (i : Instr) (s : State) : ExecShape i s := by
  cases i with
  | nop => exact ⟨_, by decide, .inl rfl⟩
  | map x y =>
    cases h : onPanel s.layout_q x y
    · exact ⟨⟨.CLIPPED, false, 0, 0, 0⟩, by decide, .inl (by simp [exec, execMap, h, respond])⟩
    · exact ⟨⟨.DONE, true, (pam s.layout_q x y).idx, (pam s.layout_q x y).mask, 0⟩, by simp [Response.wellShaped],
        .inl (by simp [exec, execMap, h, respond])⟩
  | plotAdd x y => exact execShape_of_plot .ADD (.inl rfl) rfl
  | plotSub x y => exact execShape_of_plot .SUBTRACT (.inr (.inl rfl)) rfl
  | plotInv x y => exact execShape_of_plot .INVERT (.inr (.inr rfl)) rfl
  | rdb idx => exact ⟨_, by simp [Response.wellShaped], .inl rfl⟩
  | wrb idx data => exact ⟨_, by decide, .inr (.inl ⟨rfl, idx, data, .inl ⟨data, rfl⟩, rfl⟩)⟩
  | clr => exact ⟨_, by decide, .inr (.inr ⟨rfl, rfl, rfl⟩)⟩

/-- Everything an accepted word can do (R69): its operation, or the ILLEGAL report. -/
theorem serve_cases (w : RequestWord) (s : State) :
    (∃ i, decode w = .instr i ∧ serve w s = exec i s) ∨
    (∃ reason, decode w = .illegal reason ∧
      serve w s = .next { s with owed := s.owed ++ [⟨.ILLEGAL, false, 0, 0, 0⟩] }) := by
  unfold serve
  cases h : decode w with
  | instr i => exact .inl ⟨i, rfl, rfl⟩
  | illegal reason => exact .inr ⟨reason, rfl, rfl⟩

/-- When a requester breaks R165(c): a request presented before does not stand at this edge. -/
theorem requestBroken_iff (e : Edge) (s : State) :
    requestBroken e s = true ↔ ∃ w, s.presented = some w ∧ ¬ (e.reqValid = true ∧ e.req = w) := by
  unfold requestBroken
  cases s.presented <;> simp [imp_iff_not_or]

/-- Everything a step can do: nothing where no edge is left; else a reset edge, a refusal where the requester broke its
duty, a request accepted and performed, or an edge that accepts nothing. -/
theorem step_cases (s : State) :
    (s.edges = [] ∧ step s = .next s) ∨
    ∃ e rest, s.edges = e :: rest ∧
      ((e.rst = true ∧ step s = .next (resetEdge e { s with edges := rest })) ∨
       (e.rst = false ∧ requestBroken e s = true ∧ step s = .refused .requestChanged) ∨
       (e.rst = false ∧ requestBroken e s = false ∧ e.accepts = true ∧
         step s = serve e.req (acceptState e { s with edges := rest })) ∨
       (e.rst = false ∧ requestBroken e s = false ∧ e.accepts = false ∧
         step s = .next (waitEdge e { s with edges := rest }))) := by
  cases h : s.edges with
  | nil => exact .inl ⟨rfl, by simp [step, h]⟩
  | cons e rest =>
    refine .inr ⟨e, rest, rfl, ?_⟩
    have hb : requestBroken e { s with edges := rest } = requestBroken e s := rfl
    cases hr : e.rst
    · cases hq : requestBroken e s
      · cases ha : e.accepts
        · exact .inr (.inr (.inr ⟨rfl, rfl, rfl, by simp [step, h, clockEdge, hr, hb, hq, ha]⟩))
        · exact .inr (.inr (.inl ⟨rfl, rfl, rfl, by simp [step, h, clockEdge, hr, hb, hq, ha]⟩))
      · exact .inr (.inl ⟨rfl, rfl, by simp [step, h, clockEdge, hr, hb, hq]⟩)
    · exact .inl ⟨rfl, by simp [step, h, clockEdge, hr]⟩

end Sys2Proof.Machine
end

