-- ==== Sys2Proof/Laws/PerInstr.lean ====
section
/-! SUPPORT. Statements about every operation, one lemma per constructor. -/

namespace Sys2Proof.Laws.TableRow

/-- The word of the operation is accepted by the row of the opcode table that carries its name (R69). -/
def Statement (i : Instr) : Prop :=
  ∃ r ∈ opcodeTable, r.mnemonic = i.mnemonic ∧ r.accepts (encode i) = true

/-- A mask that keeps only the bits above the operand sees `op`, `mode` and `rsv0` of an XY word. -/
theorem encodeXY_masked (op : BitVec 3) (mode : BitVec 2) (x y : Coord) :
    encodeXY op mode x y &&& 0xFF00000000#40 = op ++ mode ++ 0#35 := by
  apply BitVec.eq_of_getLsbD_eq
  intro k hk
  simp only [encodeXY, BitVec.getLsbD_and, BitVec.getLsbD_append]
  interval_cases k <;> simp

/-- The mask of RDB leaves out the index; its data is 0. -/
theorem encodeRdb_masked (op : BitVec 3) (idx : Index) :
    encodeBI op idx 0#8 &&& 0xFFFFFC00FF#40 = op ++ 0#37 := by
  apply BitVec.eq_of_getLsbD_eq
  intro k hk
  simp only [encodeBI, BitVec.getLsbD_and, BitVec.getLsbD_append]
  interval_cases k <;> simp

/-- The mask of WRB leaves out the index and the data. -/
theorem encodeWrb_masked (op : BitVec 3) (idx : Index) (data : Byte) :
    encodeBI op idx data &&& 0xFFFFFC0000#40 = op ++ 0#37 := by
  apply BitVec.eq_of_getLsbD_eq
  intro k hk
  simp only [encodeBI, BitVec.getLsbD_and, BitVec.getLsbD_append]
  interval_cases k <;> simp

theorem nop : Statement .nop := ⟨⟨"NOP", 0x0000000000#40, 0xFFFFFFFFFF#40⟩, by simp [opcodeTable], rfl, by decide⟩

theorem map (x y : Coord) : Statement (.map x y) :=
  ⟨⟨"MAP", 0x2000000000#40, 0xFF00000000#40⟩, by simp [opcodeTable], rfl, by
    rw [Row.accepts, encode, encodeXY_masked]; decide⟩

theorem plotAdd (x y : Coord) : Statement (.plotAdd x y) :=
  ⟨⟨"PLOT.ADD", 0x4000000000#40, 0xFF00000000#40⟩, by simp [opcodeTable], rfl, by
    rw [Row.accepts, encode, encodeXY_masked]; decide⟩

theorem plotSub (x y : Coord) : Statement (.plotSub x y) :=
  ⟨⟨"PLOT.SUB", 0x4800000000#40, 0xFF00000000#40⟩, by simp [opcodeTable], rfl, by
    rw [Row.accepts, encode, encodeXY_masked]; decide⟩

theorem plotInv (x y : Coord) : Statement (.plotInv x y) :=
  ⟨⟨"PLOT.INV", 0x5000000000#40, 0xFF00000000#40⟩, by simp [opcodeTable], rfl, by
    rw [Row.accepts, encode, encodeXY_masked]; decide⟩

theorem rdb (idx : Index) : Statement (.rdb idx) :=
  ⟨⟨"RDB", 0x6000000000#40, 0xFFFFFC00FF#40⟩, by simp [opcodeTable], rfl, by
    rw [Row.accepts, encode, encodeRdb_masked]; decide⟩

theorem wrb (idx : Index) (data : Byte) : Statement (.wrb idx data) :=
  ⟨⟨"WRB", 0x8000000000#40, 0xFFFFFC0000#40⟩, by simp [opcodeTable], rfl, by
    rw [Row.accepts, encode, encodeWrb_masked]; decide⟩

theorem clr : Statement .clr := ⟨⟨"CLR", 0xA000000000#40, 0xFFFFFFFFFF#40⟩, by simp [opcodeTable], rfl, by decide⟩

end Sys2Proof.Laws.TableRow
end

