-- ==== Sys2Proof/Laws/Run.lean ====
section
/-! SUPPORT. Runs of several steps, one step at a time, and what an edge outside reset does with the responses owed. -/

namespace Sys2Proof.Machine

@[simp] theorem run_zero (s : State) : Host.Core.run core 0 s = .next s := rfl

/-- A run whose first step answers a next state goes on from there. -/
theorem run_succ_of_next {k : Nat} {s t : State} (h : step s = .next t) :
    Host.Core.run core (k + 1) s = Host.Core.run core k t := by
  have h' : core.step s = .next t := h
  simp only [Host.Core.run, h']

/-- A run that answers a next state took a first step that did. -/
theorem run_succ_next {k : Nat} {s t : State} (h : Host.Core.run core (k + 1) s = .next t) :
    ∃ u, step s = .next u ∧ Host.Core.run core k u = .next t := by
  cases hs : step s with
  | next u => exact ⟨u, rfl, by rw [← run_succ_of_next hs]; exact h⟩
  | fault r => cases r
  | refused r =>
    have hs' : core.step s = .refused r := hs
    simp only [Host.Core.run, hs'] at h
    cases h

/-- What stands on `rsp` after an edge outside reset, before what is still owed, is what was owed before it. -/
theorem answerOldest_words (e : Edge) (s : State) :
    (answerOldest e s).rsp.toList ++ (answerOldest e s).owed.map Response.pack = s.owed.map Response.pack := by
  obtain ⟨r, rest, -, h, he⟩ | ⟨-, he⟩ := answerOldest_cases s e <;> rw [he]
  · rw [h]; rfl
  · rfl

/-- The answering side adds nothing to the responses owed. -/
theorem answerOldest_owed_subset (e : Edge) (s : State) : ∀ r ∈ (answerOldest e s).owed, r ∈ s.owed := by
  obtain ⟨r, rest, -, h, he⟩ | ⟨-, he⟩ := answerOldest_cases s e <;> rw [he]
  · intro a ha; rw [h]; exact List.mem_cons_of_mem r ha
  · exact fun _ ha => ha

end Sys2Proof.Machine
end

