-- ==== Sys2Proof/Laws/Spec.lean ====
section
/-! SUPPORT. One operation and one request word of the machine beside the block as R32 states it: the same response, the
same bytes, the same layout. -/

namespace Sys2Proof.Machine

/-- No operation writes the layout (R22). -/
@[simp] theorem specOp_layout (cfg : Config) (i : Instr) (σ : SpecState) : (specOp cfg i σ).1.1 = σ.1 := by
  have hp : ∀ mode x y, (specPlot cfg mode x y σ).1.1 = σ.1 := by
    intro mode x y
    unfold specPlot
    dsimp only
    split
    · rfl
    · split <;> rfl
  cases i <;> first | rfl | exact hp _ _ _

/-- The three ways of a PLOT over `(layout_q, FB)`, as the machine's sequence tells them apart. -/
theorem specPlot_off (cfg : Config) (mode : WriteMode) {x y : Coord} {σ : SpecState} (h : onPanel σ.1 x y = false) :
    specPlot cfg mode x y σ = (σ, plainResponse .CLIPPED 0) := by
  simp [specPlot, h]

theorem specPlot_guarded {cfg : Config} (mode : WriteMode) {x y : Coord} {σ : SpecState}
    (h : onPanel σ.1 x y = true) (hi : indexOK cfg (pam σ.1 x y).idx = false) :
    specPlot cfg mode x y σ = (σ, pointResponse .GUARDED (pam σ.1 x y)) := by
  have hg : ¬ (cfg.index0Guard = false ∨ (pam σ.1 x y).idx ≠ 0) := by rw [← indexOK_iff, hi]; decide
  rw [not_or, Bool.not_eq_false, ne_eq, Decidable.not_not] at hg
  simp [specPlot, h, hg.1, hg.2]

theorem specPlot_done {cfg : Config} (mode : WriteMode) {x y : Coord} {σ : SpecState}
    (h : onPanel σ.1 x y = true) (hi : indexOK cfg (pam σ.1 x y).idx = true) :
    specPlot cfg mode x y σ =
      ((σ.1, setByte σ.2 (pam σ.1 x y).idx (combine mode (σ.2 (pam σ.1 x y).idx) (pam σ.1 x y).mask)),
        pointResponse .DONE (pam σ.1 x y)) := by
  rw [indexOK_iff] at hi
  rcases hi with hi | hi
  · simp [specPlot, h, hi]
  · simp only [specPlot, pam_valid, h, beq_eq_false_iff_ne.2 hi, Bool.and_false, Bool.not_true, Bool.false_eq_true,
      if_false]

/-- A PLOT of the machine and of R32. -/
theorem plot_spec (mode : WriteMode) (x y : Coord) (s : State) :
    ∃ fb, plot mode x y s = { s with fb := fb, owed := s.owed ++ [(specPlot s.cfg mode x y s.spec).2] } ∧
      ∀ j : Index, memRead fb j.toNat = (specPlot s.cfg mode x y s.spec).1.2 j := by
  obtain ⟨h, he⟩ | ⟨h, hi, he⟩ | ⟨h, hi, he⟩ := plot_cases mode x y s
  · rw [he, specPlot_off s.cfg mode (σ := s.spec) h]
    exact ⟨s.fb, rfl, fun _ => rfl⟩
  · rw [he, specPlot_guarded mode (σ := s.spec) h hi]
    exact ⟨s.fb, rfl, fun _ => rfl⟩
  · rw [he, specPlot_done mode (σ := s.spec) h hi]
    exact ⟨_, rfl, fun j => fbRead_fbWrite s _ j _⟩

/-- One operation: the machine answers a next state in which only the bytes and the responses owed may differ, and they
are what R32's block gives. -/
theorem exec_spec (i : Instr) (s : State) :
    ∃ fb, exec i s = .next { s with fb := fb, owed := s.owed ++ [(specOp s.cfg i s.spec).2] } ∧
      ∀ j : Index, memRead fb j.toNat = (specOp s.cfg i s.spec).1.2 j := by
  have hp : ∀ mode x y, specOp s.cfg i s.spec = specPlot s.cfg mode x y s.spec →
      exec i s = .next (plot mode x y s) →
      ∃ fb, exec i s = .next { s with fb := fb, owed := s.owed ++ [(specOp s.cfg i s.spec).2] } ∧
        ∀ j : Index, memRead fb j.toNat = (specOp s.cfg i s.spec).1.2 j := by
    intro mode x y hs he
    obtain ⟨fb, h1, h2⟩ := plot_spec mode x y s
    exact ⟨fb, by rw [he, h1, hs], by rw [hs]; exact h2⟩
  cases i with
  | nop => exact ⟨s.fb, rfl, fun _ => rfl⟩
  | map x y =>
    refine ⟨s.fb, ?_, fun _ => rfl⟩
    cases h : onPanel s.layout_q x y <;>
      simp [exec, execMap, specOp, State.spec, h, respond, pointResponse, plainResponse]
  | plotAdd x y => exact hp .ADD x y rfl rfl
  | plotSub x y => exact hp .SUBTRACT x y rfl rfl
  | plotInv x y => exact hp .INVERT x y rfl rfl
  | rdb idx => exact ⟨s.fb, rfl, fun _ => rfl⟩
  | wrb idx data => exact ⟨_, rfl, fun j => fbRead_fbWrite s idx j data⟩
  | clr => exact ⟨[], rfl, fun _ => rfl⟩

/-- One request word. -/
theorem serve_spec (w : RequestWord) (s : State) :
    ∃ fb, serve w s = .next { s with fb := fb, owed := s.owed ++ [(specRequest s.cfg w s.spec).2] } ∧
      ∀ j : Index, memRead fb j.toNat = (specRequest s.cfg w s.spec).1.2 j := by
  obtain ⟨i, hd, he⟩ | ⟨reason, hd, he⟩ := serve_cases w s
  · obtain ⟨fb, h1, h2⟩ := exec_spec i s
    exact ⟨fb, by rw [he, h1]; simp [specRequest, hd], fun j => by simp [specRequest, hd, h2 j]⟩
  · exact ⟨s.fb, by rw [he]; simp [specRequest, hd, plainResponse], fun j => by simp [specRequest, hd]; rfl⟩

/-- No request writes the layout (R22). -/
@[simp] theorem specRequest_layout (cfg : Config) (w : RequestWord) (σ : SpecState) :
    (specRequest cfg w σ).1.1 = σ.1 := by
  unfold specRequest
  split
  · exact specOp_layout cfg _ σ
  · rfl

end Sys2Proof.Machine
end

