-- ==== Sys2Proof/Laws/Text.lean ====
section
/-! SUPPORT. The text form: numbers read back as they are written, what trimming and splitting leave,
and which value an operand in range stands for. -/

namespace Sys2Proof.Machine

/-! ## Numbers -/

theorem decDigit_digitChar (n : Nat) : decDigit (digitChar n) = some (n % 10) := by
  have h : digitChar n = digitChar (n % 10) := by simp [digitChar]
  rw [h]
  have hlt : n % 10 < 10 := Nat.mod_lt _ (by decide)
  interval_cases n % 10 <;> decide

theorem readDigits_append (digit : Char → Option Nat) (base acc : Nat) (l₁ l₂ : List Char) :
    readDigits digit base acc (l₁ ++ l₂) =
      (readDigits digit base acc l₁).bind fun a => readDigits digit base a l₂ := by
  induction l₁ generalizing acc with
  | nil => rfl
  | cons c l ih => simp only [List.cons_append, readDigits]; cases digit c <;> simp [ih]

theorem readDigits_decDigits (fuel n : Nat) (h : n < 10 ^ (fuel + 1)) :
    readDigits decDigit 10 0 (decDigits fuel n) = some n := by
  induction fuel generalizing n with
  | zero => simp only [decDigits, readDigits, decDigit_digitChar]; simp; omega
  | succ f ih =>
    simp only [decDigits]; split
    · simp only [readDigits, decDigit_digitChar]; simp; omega
    · rw [readDigits_append, ih (n / 10) (by rw [Nat.pow_succ] at h; omega)]
      simp [readDigits, decDigit_digitChar]; omega

theorem decDigits_ne_nil (fuel n : Nat) : decDigits fuel n ≠ [] := by
  cases fuel <;> simp [decDigits]; split <;> simp

/-- Every character of an unsigned operand is a decimal digit. -/
theorem natText_digits (n : Nat) : ∀ c ∈ natText n, ∃ d, decDigit c = some d := by
  have key : ∀ fuel n, ∀ c ∈ decDigits fuel n, ∃ d, decDigit c = some d := by
    intro fuel
    induction fuel with
    | zero => intro n; simp [decDigits]; exact ⟨_, decDigit_digitChar n⟩
    | succ f ih =>
      intro n
      simp only [decDigits]; split
      · simp; exact ⟨_, decDigit_digitChar n⟩
      · simp; rintro c (h | rfl)
        · exact ih _ c h
        · exact ⟨_, decDigit_digitChar _⟩
  exact key 4 n

/-- A decimal digit is one of the characters `0` to `9`. -/
theorem decDigit_range {c : Char} (h : ∃ d, decDigit c = some d) : 48 ≤ c.toNat ∧ c.toNat ≤ 57 := by
  obtain ⟨d, h⟩ := h
  unfold decDigit at h
  split at h <;> simp_all

theorem readNumber_natText {n : Nat} (h : n < 100000) : readNumber decDigit 10 (natText n) = some n := by
  have hr := readDigits_decDigits 4 n h
  unfold natText
  cases hd : decDigits 4 n with
  | nil => exact absurd hd (decDigits_ne_nil 4 n)
  | cons c cs => rw [hd] at hr; exact hr

theorem readOperand_natText {n : Nat} (h : n < 100000) : readOperand (natText n) = some (.dec n) := by
  have hok := natText_digits n
  unfold readOperand
  split
  · rename_i ds he
    exact absurd (decDigit_range (hok '-' (by rw [he]; simp))) (by decide)
  · rename_i hs he
    exact absurd (decDigit_range (hok 'x' (by rw [he]; simp))) (by decide)
  · rw [readNumber_natText h]; rfl

theorem readOperand_intText {n : Int} (h : -100000 < n ∧ n < 100000) : readOperand (intText n) = some (.dec n) := by
  unfold intText
  split
  · simp only [readOperand]
    rw [readNumber_natText (by omega)]
    simp only [Option.map_some]
    congr 2
    omega
  · rw [readOperand_natText (by omega)]
    congr 2
    omega

/-! ## Operands in range -/

/-- A coordinate is written exactly by the operands in its range, each of which writes one (R73). -/
theorem writesCoord_iff (o : Operand) (c : Coord) : WritesCoord o c ↔ o.isCoord = true ∧ c = coordOf o := by
  cases o with
  | dec n =>
    simp only [WritesCoord, Operand.isCoord, coordOf, Operand.value, decide_eq_true_eq, and_assoc]
    refine and_congr_right fun h1 => and_congr_right fun h2 => ?_
    rw [← BitVec.toInt_inj, BitVec.toInt_ofInt_eq_self (by decide) (by norm_num; omega) (by norm_num; omega)]
  | hex n =>
    simp only [WritesCoord, Operand.isCoord, coordOf, Operand.value, decide_eq_true_eq]
    refine and_congr_right fun h => ?_
    rw [← BitVec.toNat_inj, BitVec.ofInt_natCast, BitVec.toNat_ofNat, Nat.mod_eq_of_lt h]

/-- An index is written exactly by the operands in 0..1023 (R73). -/
theorem writesIndex_iff (o : Operand) (i : Index) : WritesIndex o i ↔ o.isIndex = true ∧ i = indexOf o := by
  simp only [WritesIndex, Operand.isIndex, indexOf, decide_eq_true_eq, and_assoc]
  refine and_congr_right fun h1 => and_congr_right fun h2 => ?_
  rw [← BitVec.toNat_inj, BitVec.toNat_ofNat, Nat.mod_eq_of_lt (by omega)]
  omega

/-- A byte is written exactly by the operands in 0..255 (R73). -/
theorem writesByte_iff (o : Operand) (b : Byte) : WritesByte o b ↔ o.isData = true ∧ b = dataByteOf o := by
  simp only [WritesByte, Operand.isData, dataByteOf, decide_eq_true_eq, and_assoc]
  refine and_congr_right fun h1 => and_congr_right fun h2 => ?_
  rw [← BitVec.toNat_inj, BitVec.toNat_ofNat, Nat.mod_eq_of_lt (by omega)]
  omega

/-! ## Blanks and commas -/

/-- Text that neither starts nor ends with a blank is left as it is. -/
theorem trimBlanks_of_ends {l : List Char} (h : ∀ c, l.head? = some c → isBlank c = false)
    (h' : ∀ c, l.getLast? = some c → isBlank c = false) : trimBlanks l = l := by
  have h1 : l.dropWhile isBlank = l := by
    cases l with
    | nil => rfl
    | cons c l => simp [List.dropWhile, h c (by simp)]
  have h2 : l.reverse.dropWhile isBlank = l.reverse := by
    cases hr : l.reverse with
    | nil => rfl
    | cons c l2 =>
      have : l.getLast? = some c := by rw [← List.head?_reverse, hr]; rfl
      simp [List.dropWhile, h' c this]
  unfold trimBlanks
  rw [h1, h2, List.reverse_reverse]

/-- A leading blank is dropped. -/
theorem trimBlanks_cons {c : Char} (h : isBlank c = true) (l : List Char) : trimBlanks (c :: l) = trimBlanks l := by
  simp [trimBlanks, List.dropWhile, h]

theorem splitCommas_one {l : List Char} (h : ∀ c ∈ l, c ≠ ',') : splitCommas l = [l] := by
  induction l with
  | nil => rfl
  | cons c l ih =>
    simp only [splitCommas]
    rw [ih fun c hc => h c (by simp [hc])]
    simp [h c (by simp)]

theorem splitCommas_two {a b : List Char} (h : ∀ c ∈ a, c ≠ ',') (h' : ∀ c ∈ b, c ≠ ',') :
    splitCommas (a ++ ',' :: b) = [a, b] := by
  induction a with
  | nil => simp [splitCommas, splitCommas_one h']
  | cons c l ih =>
    simp only [List.cons_append, splitCommas]
    rw [ih fun c hc => h c (by simp [hc])]
    simp [h c (by simp)]

end Sys2Proof.Machine
end

