-- ==== Sys2Proof/Tests/Slice0.lean ====
section
/-! SUPPORT. The model's own tests. Expected values come from spec/: the vectors and programs of 95_test_vectors.md, the
examples of R90, R103 to R105 and R120 to R123, or hand calculation from the rules named. The last part shows, for each
statement with hypotheses, a state and operands that meet them. -/

namespace Sys2Proof.Tests

open Sys2Proof.Machine

/-! ## Helpers -/

/-- A block with this guard, layout and framebuffer, nothing in flight. -/
def block (guard : Bool) (layout : Layout) (fb : Memory) : State :=
  { State.afterReset { index0Guard := guard } layout with fb := fb }

/-- The step that performs one request word. -/
def request (w : Nat) (s : State) : Host.Outcome State Fault Refusal := step (s.withFetchWord 40 w)

/-- The response words owed after a step. -/
def words : Host.Outcome State Fault Refusal → List ResponseWord
  | .next t => t.owed.map Response.pack
  | _ => []

/-- The framebuffer after a step. -/
def memory : Host.Outcome State Fault Refusal → Option Memory
  | .next t => some t.fb
  | _ => none

/-! ## The well-formedness check refuses (R73) -/

theorem test_wf_x_low : (Source.map (.dec (-32769)) (.dec 0)).wellFormed = false := by decide
theorem test_wf_y_high : (Source.plotAdd (.dec 0) (.dec 32768)).wellFormed = false := by decide
theorem test_wf_x_pattern : (Source.plotSub (.hex 0x10000) (.dec 0)).wellFormed = false := by decide
theorem test_wf_inv_y : (Source.plotInv (.dec 0) (.dec (-32769))).wellFormed = false := by decide
theorem test_wf_rdb_index : (Source.rdb (.dec 1024)).wellFormed = false := by decide
theorem test_wf_rdb_negative : (Source.rdb (.dec (-1))).wellFormed = false := by decide
theorem test_wf_wrb_index : (Source.wrb (.hex 0x400) (.dec 0)).wellFormed = false := by decide
theorem test_wf_wrb_data : (Source.wrb (.dec 0) (.dec 256)).wellFormed = false := by decide
theorem test_wf_accepts_edges : (Source.map (.dec (-32768)) (.hex 0xFFFF)).wellFormed = true ∧
    (Source.wrb (.dec 1023) (.hex 0xFF)).wellFormed = true := by decide

/-! ## Decoding: words written out from R61 to R66, field by field -/

/-- Format XY: op 001, mode 00, rsv0 000, x = 5, y = 13. -/
theorem test_decode_map :
    decode (0b001#3 ++ 0b00#2 ++ 0b000#3 ++ 0b0000000000000101#16 ++ 0b0000000000001101#16) = .instr (.map 5 13) := by
  decide
/-- op 010, mode 00, x = −1. -/
theorem test_decode_plotAdd : decode 0x40FFFF0000#40 = .instr (.plotAdd (-1) 0) := by decide
/-- op 010, mode 01. -/
theorem test_decode_plotSub :
    decode (0b010#3 ++ 0b01#2 ++ 0b000#3 ++ 0b0000000000000101#16 ++ 0b0000000000001101#16) = .instr (.plotSub 5 13) := by
  decide
/-- op 010, mode 10. -/
theorem test_decode_plotInv : decode 0x500006000D#40 = .instr (.plotInv 6 13) := by decide
/-- Format BI: op 011, rsv1 0, idx = 133, data 0. -/
theorem test_decode_rdb :
    decode (0b011#3 ++ 0b00#2 ++ 0b000#3 ++ 0b00000000000000#14 ++ 0b0010000101#10 ++ 0b00000000#8) = .instr (.rdb 133) := by
  decide
/-- op 100, idx = 1023, data = 0xA5. -/
theorem test_decode_wrb : decode 0x800003FFA5#40 = .instr (.wrb 1023 0xA5) := by decide
/-- Format Z. -/
theorem test_decode_z : decode 0x0000000000#40 = .instr .nop ∧ decode 0xA000000000#40 = .instr .clr := by decide
/-- 95_test_vectors.md 2.7, with the item of R71 each word falls under. -/
theorem test_decode_illegal :
    decode 0xC000000000#40 = .illegal .reservedOp ∧ decode 0xE000000000#40 = .illegal .reservedOp ∧
    decode 0x5800000000#40 = .illegal .reservedMode ∧ decode 0x2800000000#40 = .illegal .modeOutsidePlot ∧
    decode 0x8800000000#40 = .illegal .modeOutsidePlot ∧ decode 0x4100000000#40 = .illegal .rsv0Set ∧
    decode 0x6000000001#40 = .illegal .rdbDataSet ∧ decode 0x6000040000#40 = .illegal .rsv1Set ∧
    decode 0x8000040000#40 = .illegal .rsv1Set ∧ decode 0x0000000001#40 = .illegal .operandSet ∧
    decode 0xA000000100#40 = .illegal .operandSet := by decide
/-- The words of 95_test_vectors.md from the encoder. -/
theorem test_encode : encode (.map 10 17) = 0x20000A0011#40 ∧ encode (.plotAdd (-1) 0) = 0x40FFFF0000#40 ∧
    encode (.plotSub 5 13) = 0x480005000D#40 ∧ encode (.rdb 1023) = 0x600003FF00#40 := by decide
theorem test_table_word : decodeTableWord 40 0x8000000000 = some (.wrb 0 0) ∧ decodeTableWord 40 0xC000000000 = none := by
  decide

/-! ## The mapper (95_test_vectors.md 2.1, 2.2, 2.3) -/

theorem test_pam_full : pam .FULL 64 31 = ⟨true, 448, 0x80⟩ ∧ pam .FULL 127 63 = ⟨true, 1023, 0x80⟩ := by decide
theorem test_pam_layouts_differ : pam .FULL 5 13 = ⟨true, 133, 0x20⟩ ∧ pam .HALF 5 13 = ⟨true, 389, 0x0C⟩ := by decide
theorem test_pam_half : pam .HALF 0 3 = ⟨true, 0, 0xC0⟩ ∧ pam .HALF 127 31 = ⟨true, 1023, 0xC0⟩ := by decide
theorem test_pam_clips : pam .FULL 128 0 = ⟨false, 0, 0⟩ ∧ pam .FULL (-1) 0 = ⟨false, 0, 0⟩ ∧
    pam .FULL 0 64 = ⟨false, 0, 0⟩ ∧ pam .HALF 0 32 = ⟨false, 0, 0⟩ := by decide
theorem test_pam_no_wrap : pam .HALF 0 (-32768) = ⟨false, 0, 0⟩ ∧ pam .HALF 0 (-32737) = ⟨false, 0, 0⟩ := by decide

/-! ## One request, one step -/

/-- R90, example. -/
theorem test_map_half : words (request 0x20000A0011 (block false .HALF [])) = [0x060A0C00#29] := by decide
/-- R90: MAP does not apply the guard; 2.3. -/
theorem test_map_guard_clip : words (request 0x2000000000 (block true .FULL [])) = [0x04000100#29] ∧
    words (request 0x2000800000 (block true .FULL [])) = [0x08000000#29] := by decide
/-- R103, example. -/
theorem test_plotAdd_sets : words (request 0x400005000D (block false .FULL [])) = [0x04852000#29] ∧
    memory (request 0x400005000D (block false .FULL [])) = some [(133, 0x20)] := by decide
/-- 2.5: guarded. -/
theorem test_plotAdd_guarded : words (request 0x4000000000 (block true .FULL [(1, 7)])) = [0x14000100#29] ∧
    memory (request 0x4000000000 (block true .FULL [(1, 7)])) = some [(1, 7)] := by decide
/-- R104, example. -/
theorem test_plotSub_clears : words (request 0x480005000D (block false .FULL [(133, 0xFF)])) = [0x04852000#29] ∧
    memory (request 0x480005000D (block false .FULL [(133, 0xFF)])) = some [(133, 0xDF)] := by decide
/-- P2: the last bit pair of byte 0 goes back to zero. -/
theorem test_plotSub_half : memory (request 0x4800000000 (block false .HALF [(0, 0x03), (9, 1)])) = some [(9, 1)] := by
  decide
/-- R105, example: a half-lit pair. -/
theorem test_plotInv_half : words (request 0x5000000000 (block false .HALF [(0, 0x01)])) = [0x04000300#29] ∧
    memory (request 0x5000000000 (block false .HALF [(0, 0x01)])) = some [(0, 0x02)] := by decide
/-- 2.5: clipped, nothing written. -/
theorem test_plotInv_clipped : words (request 0x5000000020 (block false .HALF [(0, 0x01)])) = [0x08000000#29] ∧
    memory (request 0x5000000020 (block false .HALF [(0, 0x01)])) = some [(0, 0x01)] := by decide
/-- 2.6. -/
theorem test_rdb : words (request 0x600003FF00 (block false .FULL [(1023, 0xA5)])) = [0x000000A5#29] ∧
    words (request 0x600003FF00 (block true .HALF [])) = [0x00000000#29] := by decide
/-- R121: the guard does not apply to WRB; the write of zero unlists the byte. -/
theorem test_wrb : memory (request 0x800003FFA5 (block false .FULL [(0, 1)])) = some [(0, 1), (1023, 0xA5)] ∧
    memory (request 0x8000000000 (block true .FULL [(0, 1), (5, 2)])) = some [(5, 2)] := by decide
/-- R122. -/
theorem test_clr : words (request 0xA000000000 (block true .HALF [(0, 1), (1023, 2)])) = [0#29] ∧
    memory (request 0xA000000000 (block true .HALF [(0, 1), (1023, 2)])) = some [] := by decide
/-- R123. -/
theorem test_nop : words (request 0 (block false .FULL [(3, 4)])) = [0#29] ∧
    memory (request 0 (block false .FULL [(3, 4)])) = some [(3, 4)] := by decide
/-- 2.7: the ILLEGAL response. -/
theorem test_illegal : words (request 0x6000040000 (block false .FULL [(3, 4)])) = [0x18000000#29] ∧
    memory (request 0x6000040000 (block false .FULL [(3, 4)])) = some [(3, 4)] := by decide

/-! ## The port -/

/-- A reset edge (R160, R161, R163) with the strap at 1. -/
def resetPulse : Edge := { rst := true, strap := 1, reqValid := true, req := 0x8000000001, ready := true, answer := true }
/-- An edge with no request, at which the block answers. -/
def answerPulse : Edge := { rst := false, strap := 0, reqValid := false, req := 0, ready := true, answer := true }
/-- An edge that shows a request the block does not take. -/
def stallPulse (w : RequestWord) : Edge :=
  { rst := false, strap := 1, reqValid := true, req := w, ready := false, answer := false }
/-- A response owed. -/
def doneResponse : Response := plainResponse .DONE 0x20

/-- Reset drops the owed response, clears FB, latches the strap; the write shown at that edge is not accepted. -/
theorem test_reset_edge :
    step { block true .FULL [(0, 9)] with owed := [doneResponse], resetStrap := .outside, edges := [resetPulse] } =
      .next (block true .HALF []) := by rfl
/-- A strap that moves in a reset latches the free value, whichever it is (R165(a)). -/
theorem test_reset_strap_moved :
    step { block true .FULL [] with edges := [resetPulse] } =
      .next { block true (Config.freeLayout 0) [] with resetStrap := .moved, draws := 1 } := by rfl
/-- The oldest response leaves on `rsp`, for that edge only. -/
theorem test_answer :
    step { block false .FULL [] with owed := [doneResponse, plainResponse .ILLEGAL 0], edges := [answerPulse] } =
      .next { block false .FULL [] with
        owed := [plainResponse .ILLEGAL 0], rsp := some 0x00000020, resetStrap := .outside } := by rfl
/-- A request shown and not taken stays presented; changing it is refused (R165(c)). -/
theorem test_stall_then_change :
    step { block false .FULL [] with edges := [stallPulse 0x8000000001] } =
      .next { block false .FULL [] with presented := some 0x8000000001, resetStrap := .outside } ∧
    step { block false .FULL [] with presented := some 0x8000000001, edges := [stallPulse 0x8000000002] } =
      .refused .requestChanged := ⟨rfl, rfl⟩

/-! ## Text (R73) -/

theorem test_assemble_map : assembleLine ("MAP       10, 17   ; a query".toList) = .instr (.map 10 17) := by decide
theorem test_assemble_wrb : assembleLine ("WRB 1023, 0xA5".toList) = .instr (.wrb 1023 0xA5) := by decide
theorem test_assemble_plot : assembleLine ("PLOT.ADD -1, 0xFFFF".toList) = .instr (.plotAdd (-1) (-1)) := by decide
theorem test_assemble_refuses : assembleLine ("RDB 1024".toList) = .outOfRange ∧
    assembleLine ("NOP 1".toList) = .notAStatement ∧ assembleLine ("  ; nothing".toList) = .nothing := by decide
/-- How a number is spelled: the model's choices of log 15. -/
theorem test_assemble_spelling : assembleLine ("RDB -0".toList) = .instr (.rdb 0) ∧
    assembleLine ("WRB 0007, 0x00Ff".toList) = .instr (.wrb 7 255) ∧
    assembleLine ("RDB +1".toList) = .notAStatement ∧ assembleLine ("RDB 0X1".toList) = .notAStatement := by decide
theorem test_text : textOf (.plotSub (-32768) 7) = "PLOT.SUB -32768, 7".toList := by decide

/-! ## Each statement's hypotheses are met -/

/-- EncodeOfDecode. -/
theorem witness_encodeOfDecode : decode 0x400005000D#40 = .instr (.plotAdd 5 13) := by decide
/-- DecodeAgreesWithTable: a word one row accepts, and one no row does. -/
theorem witness_decodeAgreesWithTable :
    (opcodeTable.filter fun r => 0x480005000D#40 &&& r.mask == r.matchWord) =
      [⟨"PLOT.SUB", 0x4800000000#40, 0xFF00000000#40⟩] ∧
    (opcodeTable.filter fun r => 0x5800000000#40 &&& r.mask == r.matchWord) = [] := by decide
/-- IllegalWordsAreListed: a word that falls under each item (a) to (g) alone. -/
theorem witness_illegalWordsAreListed :
    (0xC000000000#40).extractLsb 39 37 = 0b110#3 ∧ (0xE000000000#40).extractLsb 39 37 = 0b111#3 ∧
    ((0x5800000000#40).extractLsb 39 37 = 0b010#3 ∧ (0x5800000000#40).extractLsb 36 35 = 0b11#2) ∧
    ((0x2800000000#40).extractLsb 39 37 ≠ 0b010#3 ∧ (0x2800000000#40).extractLsb 36 35 ≠ 0b00#2) ∧
    (0x4100000000#40).extractLsb 34 32 ≠ 0b000#3 ∧
    ((0x8000040000#40).extractLsb 39 37 = 0b100#3 ∧ (0x8000040000#40).extractLsb 31 18 ≠ 0#14) ∧
    ((0x6000000001#40).extractLsb 39 37 = 0b011#3 ∧ (0x6000000001#40).extractLsb 7 0 ≠ 0#8) ∧
    ((0xA000000100#40).extractLsb 39 37 = 0b101#3 ∧ (0xA000000100#40).extractLsb 34 0 ≠ 0#35) := by decide
/-- ResponseWordFields: a MAP, a PLOT, an RDB, a word of neither kind, and an ILLEGAL one. -/
theorem witness_responseWordFields :
    decode 0x2000000000#40 = .instr (.map 0 0) ∧ (∃ i, PlotsAt 0 0 i ∧ decode 0x4800000000#40 = .instr i) ∧
    decode 0x600003FF00#40 = .instr (.rdb 1023) ∧
    ((0xA000000000#40).extractLsb 39 37 ≠ 0b001#3 ∧ (0xA000000000#40).extractLsb 39 37 ≠ 0b010#3 ∧
      (0xA000000000#40).extractLsb 39 37 ≠ 0b011#3) ∧
    decode 0xC000000000#40 = .illegal .reservedOp :=
  ⟨by decide, ⟨.plotSub 0 0, .inr (.inl rfl), by decide⟩, by decide, by decide, by decide⟩

/-- An edge that takes a request while it answers another. -/
def takePulse (w : RequestWord) : Edge :=
  { rst := false, strap := 1, reqValid := true, req := w, ready := true, answer := true }
/-- A state with one response owed, a byte written, and these edges to come. -/
def busy (es : List Edge) : State := { block true .HALF [(0, 0x01), (5, 7)] with owed := [doneResponse], edges := es }

/-- StepRunsDecoded: nothing presented before, and the same word presented before. -/
theorem witness_stepRunsDecoded :
    (busy [takePulse 0x8000000001]).edges = takePulse 0x8000000001 :: [] ∧ (takePulse 0x8000000001).rst = false ∧
    (takePulse 0x8000000001).reqValid = true ∧ (takePulse 0x8000000001).ready = true ∧
    (busy [takePulse 0x8000000001]).presented = none ∧
    ({ busy [takePulse 0x8000000001] with presented := some 0x8000000001#40 } : State).presented =
      some (takePulse 0x8000000001).req ∧
    decode (takePulse 0x8000000001).req = .instr (.wrb 0 1) := by decide
/-- FetchWordRunsNext. -/
theorem witness_fetchWordRunsNext : decode 0xA000000000#40 = .instr .clr := by decide
/-- OneResponsePerRequest: an edge that accepts and answers, and one that does neither. -/
theorem witness_oneResponsePerRequest :
    (takePulse 0).rst = false ∧ (∃ t, step (busy [takePulse 0]) = .next t) ∧
    (stallPulse 0).rst = false ∧ ∃ t, step (busy [stallPulse 0]) = .next t :=
  ⟨rfl, ⟨_, rfl⟩, rfl, ⟨_, rfl⟩⟩
/-- WaitingChangesNothing: a request held and not taken, and an edge without one. -/
theorem witness_waitingChangesNothing :
    ((stallPulse 7).rst = false ∧ (stallPulse 7).ready = false ∧ (stallPulse 7).reqValid = true ∧
      ({ busy [stallPulse 7] with presented := some 7#40 } : State).presented = some (stallPulse 7).req) ∧
    (answerPulse.rst = false ∧ answerPulse.reqValid = false ∧ (busy [answerPulse]).presented = none) := by decide
/-- StepsStopOnlyOnABrokenDuty: a request withdrawn, one changed, one held, and a reset edge that forgets one. -/
theorem witness_stepsStopOnlyOnABrokenDuty :
    step { busy [answerPulse] with presented := some 7#40 } = .refused .requestChanged ∧
    step { busy [stallPulse 6] with presented := some 7#40 } = .refused .requestChanged ∧
    (∃ t, step { busy [stallPulse 7] with presented := some 7#40 } = .next t) ∧
    ∃ t, step { busy [resetPulse] with presented := some 7#40 } = .next t := ⟨rfl, rfl, ⟨_, rfl⟩, ⟨_, rfl⟩⟩
/-- OwedAnswersDrain: two responses, two edges. -/
theorem witness_owedAnswersDrain :
    ({ busy [answerPulse, answerPulse, resetPulse] with owed := [doneResponse, doneResponse] } : State).edges =
      [answerPulse, answerPulse] ++ [resetPulse] ∧
    [answerPulse, answerPulse].length = [doneResponse, doneResponse].length ∧
    (busy []).presented = none ∧
    ∀ e ∈ [answerPulse, answerPulse], e.rst = false ∧ e.answer = true ∧ e.reqValid = false := by decide
/-- ResetEdge: the first edge of a reset, a second with the strap as before, and one with the strap moved. -/
theorem witness_resetEdge :
    (busy [resetPulse]).edges = resetPulse :: [] ∧ resetPulse.rst = true ∧
    ({ busy [resetPulse] with resetStrap := .outside } : State).resetStrap = .outside ∧
    (busy [resetPulse]).resetStrap = .steady (if resetPulse.strap = 0#1 then .FULL else .HALF) ∧
    ¬ ((block true .FULL []).resetStrap = .outside ∨
      (block true .FULL []).resetStrap = .steady (if resetPulse.strap = 0#1 then .FULL else .HALF)) := by decide
/-- SteadyResetLatchesTheStrap: two reset edges with the strap at 1. -/
theorem witness_steadyResetLatchesTheStrap :
    (busy [resetPulse, resetPulse, answerPulse]).edges = [resetPulse, resetPulse] ++ [answerPulse] ∧
    [resetPulse, resetPulse] ≠ [] ∧ (∀ e ∈ [resetPulse, resetPulse], e.rst = true ∧ e.strap = 1#1) ∧
    ({ busy [resetPulse, resetPulse, answerPulse] with resetStrap := .outside } : State).resetStrap = .outside := by
  decide
/-- LayoutChangesOnlyInReset: a step that changes the layout, and an edge outside reset. -/
theorem witness_layoutChangesOnlyInReset :
    (∃ t, step { block false .FULL [] with resetStrap := .outside, edges := [resetPulse] } = .next t ∧
      t.layout_q ≠ .FULL) ∧
    (takePulse 0).rst = false := ⟨⟨_, rfl, by decide⟩, rfl⟩
/-- GuardNeverChanges, at a reset edge and at a request. -/
theorem witness_guardNeverChanges :
    (∃ t, step (busy [resetPulse]) = .next t) ∧ ∃ t, step (busy [takePulse 0x8000000001]) = .next t :=
  ⟨⟨_, rfl⟩, ⟨_, rfl⟩⟩
/-- StepKeepsInvariant: a state with bytes and a response, that steps. -/
theorem witness_stepKeepsInvariant :
    (busy [takePulse 0x5000010000]).inv = true ∧ ∃ t, step (busy [takePulse 0x5000010000]) = .next t :=
  ⟨by decide, ⟨_, rfl⟩⟩
/-- BytesChangeOnlyByTheirWriters: reset, CLR, WRB and PLOT each change a byte. -/
theorem witness_bytesChangeOnlyByTheirWriters :
    (∃ t, step (busy [resetPulse]) = .next t ∧ memRead t.fb 5 ≠ memRead (busy []).fb 5) ∧
    (∃ t, step (busy [takePulse 0xA000000000]) = .next t ∧ memRead t.fb 5 ≠ memRead (busy []).fb 5) ∧
    (∃ t, step (busy [takePulse 0x800003FFA5]) = .next t ∧ memRead t.fb 1023 ≠ memRead (busy []).fb 1023) ∧
    ∃ t, step (busy [takePulse 0x5000050000]) = .next t ∧ memRead t.fb 5 ≠ memRead (busy []).fb 5 :=
  ⟨⟨_, rfl, by decide⟩, ⟨_, rfl, by decide⟩, ⟨_, rfl, by decide⟩, ⟨_, rfl, by decide⟩⟩
/-- RunsAreSequential: two edges, one accepting. -/
theorem witness_runsAreSequential :
    2 ≤ (busy [takePulse 0x8000000001, answerPulse]).edges.length ∧
    (∀ e ∈ (busy [takePulse 0x8000000001, answerPulse]).edges.take 2, e.rst = false) ∧
    ∃ t, Host.Core.run core 2 (busy [takePulse 0x8000000001, answerPulse]) = .next t :=
  ⟨by decide, by decide, ⟨_, rfl⟩⟩
/-- RequestsIgnoreThePast: two states that differ in what is owed, shown, presented and listed, not in what FB reads. -/
theorem witness_requestsIgnoreThePast :
    ({ busy [answerPulse] with rsp := some 3, presented := some 7#40 } : State) ≠ block true .HALF [(0, 0x01), (5, 7)] ∧
    (busy []).cfg = (block true .HALF [(0, 0x01), (5, 7)]).cfg ∧
    (busy []).layout_q = (block true .HALF [(0, 0x01), (5, 7)]).layout_q ∧
    ∀ i : Index, fbRead (busy []) i = fbRead (block true .HALF [(0, 0x01), (5, 7)]) i :=
  ⟨by decide, rfl, rfl, fun _ => rfl⟩
/-- ConditionsAreReported: each status occurs, at the edges of the panel and of the guard. -/
theorem witness_conditionsAreReported :
    (words (request 0xE000000000 (block true .FULL []))).map (·.extractLsb 28 27) = [0b11#2] ∧
    (words (request 0x2000000040 (block true .FULL []))).map (·.extractLsb 28 27) = [0b01#2] ∧
    (words (request 0x4800000007 (block true .FULL []))).map (·.extractLsb 28 27) = [0b10#2] ∧
    (words (request 0x4800000008 (block true .FULL []))).map (·.extractLsb 28 27) = [0b00#2] := by decide
/-- ClippedPointGivesZeros, on each side of the panel. -/
theorem witness_clippedPointGivesZeros :
    ¬ (0 ≤ ((-1 : Coord)).toInt) ∧ ¬ ((128 : Coord).toInt < 128) ∧
    ¬ ((32 : Coord).toInt < panelHeight .HALF) ∧ ¬ ((64 : Coord).toInt < panelHeight .FULL) := by decide
/-- FullLayoutMapping, ClosedForms, PagesHoldTheirRows: the corners of the FULL panel. -/
theorem witness_fullLayout : (pam .FULL 0 0).valid = true ∧ (pam .FULL 127 63).valid = true := by decide
/-- HalfLayoutMapping, ClosedForms, PagesHoldTheirRows: the corners of the HALF panel. -/
theorem witness_halfLayout : (pam .HALF 0 0).valid = true ∧ (pam .HALF 127 31).valid = true := by decide
/-- HalfClipDoesNotWrap: the ends of the range that wraps. -/
theorem witness_halfClipDoesNotWrap :
    ((-32737 : Coord)).toInt ≤ -32737 ∧ ((-32768 : Coord)).toInt ≤ -32737 := by decide
/-- CombineRule: a bit outside the mask. -/
theorem witness_combineRule : 7 < 8 ∧ (0x7F#8).getLsbD 7 = false := by decide
/-- PlotSequence: off the panel, guarded, index 0 unguarded, and a guarded block away from index 0. -/
theorem witness_plotSequence :
    PlotsIn .ADD 0 64 (.plotAdd 0 64) ∧ (pam .FULL 0 64).valid = false ∧
    PlotsIn .SUBTRACT 0 7 (.plotSub 0 7) ∧
    ((pam .FULL 0 7).valid = true ∧ (block true .FULL []).cfg.index0Guard = true ∧ (pam .FULL 0 7).idx = 0) ∧
    (block false .FULL []).cfg.index0Guard = false ∧
    PlotsIn .INVERT 0 8 (.plotInv 0 8) ∧ ((pam .FULL 0 8).valid = true ∧ (pam .FULL 0 8).idx ≠ 0) :=
  ⟨.inl ⟨rfl, rfl⟩, by decide, .inr (.inl ⟨rfl, rfl⟩), by decide, by decide, .inr (.inr ⟨rfl, rfl⟩), by decide⟩
/-- PlotsActOnTheirPixel: an unguarded block at the origin; guarded ones at the first points outside byte 0. -/
theorem witness_plotsActOnTheirPixel :
    (0 ≤ (0 : Coord).toInt ∧ (0 : Coord).toInt < 128 ∧ (0 : Coord).toInt < panelHeight .FULL ∧
      (block false .FULL []).cfg.index0Guard = false) ∧
    (1 : Coord).toInt ≠ 0 ∧ (8 : Int) ≤ (8 : Coord).toInt ∧ (8 : Coord).toInt < panelHeight .FULL ∧
    (4 : Int) ≤ (4 : Coord).toInt ∧ (4 : Coord).toInt < panelHeight .HALF := by decide
/-- PlotChangesAtMostItsMask: a PLOT that changes a bit, in each layout. -/
theorem witness_plotChangesAtMostItsMask :
    PlotsIn .ADD 5 13 (.plotAdd 5 13) ∧
    (∃ t, exec (.plotAdd 5 13) (block false .FULL []) = .next t ∧ (memRead t.fb 133).getLsbD 5 ≠ false) ∧
    ∃ t, exec (.plotAdd 5 13) (block false .HALF []) = .next t ∧ (memRead t.fb 389).getLsbD 3 ≠ false :=
  ⟨.inl ⟨rfl, rfl⟩, ⟨_, rfl, by decide⟩, ⟨_, rfl, by decide⟩⟩
/-- PlotRoundTrips: an invariant state with a byte set, whose pixel is clear. -/
theorem witness_plotRoundTrips :
    (block false .HALF [(0, 0x03)]).inv = true ∧
    fbRead (block false .HALF [(0, 0x03)]) (pam .HALF 0 1).idx &&& (pam .HALF 0 1).mask = 0 := by decide
/-- PlotsToDifferentBytesCommute. -/
theorem witness_plotsToDifferentBytesCommute :
    (block true .FULL [(1, 2)]).inv = true ∧ PlotsAt 1 0 (.plotAdd 1 0) ∧ PlotsAt 1 8 (.plotInv 1 8) ∧
    (pam .FULL 1 0).idx ≠ (pam .FULL 1 8).idx :=
  ⟨by decide, .inl rfl, .inr (.inr rfl), by decide⟩
/-- GuardHoldsOffPlotsOnly. -/
theorem witness_guardHoldsOffPlotsOnly :
    (block true .HALF [(0, 1)]).cfg.index0Guard = true ∧ PlotsAt 0 3 (.plotInv 0 3) := ⟨rfl, .inr (.inr rfl)⟩
/-- WrbOverwritesTheByte, ClrZeroesEveryByte: an address other than the one written, and an invariant state. -/
theorem witness_wrb_clr : (0 : Nat) ≠ (1023 : Index).toNat ∧ (block true .FULL [(0, 1), (1023, 2)]).inv = true := by
  decide
/-- RepeatedRequests: each kind of request, and an inversion that is not guarded. -/
theorem witness_repeatedRequests :
    (∃ idx, Instr.rdb 0 = .rdb idx) ∧ (∃ idx v, Instr.wrb 0 1 = .wrb idx v) ∧
    (pam .FULL 0 0).valid = true ∧ (block false .FULL []).cfg.index0Guard = false :=
  ⟨⟨0, rfl⟩, ⟨0, 1, rfl⟩, by decide, rfl⟩
/-- SetBufferReplacesEverything: the ascending order. -/
theorem witness_setBuffer :
    ((List.range 1024).map (BitVec.ofNat 10)).length = 1024 ∧
    ∀ i : Index, i ∈ (List.range 1024).map (BitVec.ofNat 10) := by
  refine ⟨by simp, fun i => List.mem_map.2 ⟨i.toNat, List.mem_range.2 i.isLt, ?_⟩⟩
  simp
/-- AssemblerRefusesOutOfRange: statements that write an operation, at the ends of each range. -/
theorem witness_writes : Writes (.map (.dec (-32768)) (.hex 0xFFFF)) (.map (-32768) (-1)) ∧
    Writes (.rdb (.hex 0x3FF)) (.rdb 1023) ∧ Writes (.wrb (.dec 0) (.dec 255)) (.wrb 0 255) :=
  ⟨⟨_, _, ⟨by decide, by decide, by decide⟩, ⟨by decide, by decide⟩, rfl⟩, ⟨_, ⟨by decide, by decide, by decide⟩, rfl⟩,
    ⟨_, _, ⟨by decide, by decide, by decide⟩, ⟨by decide, by decide, by decide⟩, rfl⟩⟩
/-- AssemblerRefusesOutOfRange: the ends of each range, inside and outside. -/
theorem witness_assembler :
    assembleSource (.rdb (.dec (-1))) = .outOfRange ∧
    assembleSource (.plotSub (.hex 0x10000) (.dec 0)) = .outOfRange ∧
    assembleSource (.plotInv (.dec 0) (.dec 32768)) = .outOfRange ∧
    assembleSource (.map (.dec (-32768)) (.dec 32767)) = .instr (.map (-32768) 32767) ∧
    assembleSource (.map (.dec (-32769)) (.dec 0)) = .outOfRange ∧
    assembleSource (.plotAdd (.hex 0xFFFF) (.hex 0)) = .instr (.plotAdd (-1) 0) ∧
    assembleSource (.plotAdd (.hex 0x10000) (.hex 0)) = .outOfRange ∧
    assembleSource (.wrb (.dec 1023) (.dec 255)) = .instr (.wrb 1023 255) ∧
    assembleSource (.wrb (.dec 1024) (.dec 0)) = .outOfRange ∧
    assembleSource (.wrb (.dec 0) (.dec 256)) = .outOfRange := by decide

end Sys2Proof.Tests
end

/-! ## The guard (R8, R52, R101) -/

section

namespace Sys2Proof.Machine

/-- A PLOT of a point, in whichever mode, answers the shared sequence of R102. -/
theorem exec_of_plotsAt {x y : Coord} {i : Instr} (h : PlotsAt x y i) (s : State) :
    ∃ mode, exec i s = .next (plot mode x y s) := by
  obtain rfl | rfl | rfl := h
  · exact ⟨.ADD, rfl⟩
  · exact ⟨.SUBTRACT, rfl⟩
  · exact ⟨.INVERT, rfl⟩

/-- Index 0 of a guarded block fails the bounds check (R101). -/
theorem indexOK_zero_of_guarded {cfg : Config} (hg : cfg.index0Guard = true) : indexOK cfg 0 = false := by
  simp [← Bool.not_eq_true, indexOK_iff, hg]

/-- A PLOT keeps every byte whose index fails the bounds check: where it writes, the index it writes has passed. -/
theorem fbRead_plot_of_not_indexOK {s : State} {j : Index} (hj : indexOK s.cfg j = false)
    (mode : WriteMode) (x y : Coord) : fbRead (plot mode x y s) j = fbRead s j := by
  obtain ⟨-, h⟩ | ⟨-, -, h⟩ | ⟨-, hok, h⟩ := plot_cases mode x y s
  · rw [h, fbRead_respond]
  · rw [h, fbRead_respond]
  · have hne : j ≠ (pam s.layout_q x y).idx := by
      rintro rfl
      simp [hj] at hok
    rw [h, fbRead_respond, fbRead_fbWrite_other s _ hne]

/-- Settles O40: index 0 of a guarded block fails the bounds check, so no PLOT reaches byte 0; WRB and CLR make no such
check. -/
theorem guardHoldsOffPlotsOnly : Obligations.GuardHoldsOffPlotsOnly := by
  intro s hg
  refine ⟨fun x y i hi => ?_, fun v => ?_, ?_⟩
  · obtain ⟨mode, he⟩ := exec_of_plotsAt hi s
    exact ⟨_, he, fbRead_plot_of_not_indexOK (indexOK_zero_of_guarded hg) mode x y⟩
  · exact ⟨_, rfl, fbRead_fbWrite_same s 0 v⟩
  · exact ⟨_, rfl, fbRead_fbClear s 0⟩

end Sys2Proof.Machine

end

/-! ## The invariant and the guard along every step (R23, R27, R67, R141) -/

section

namespace Sys2Proof.Machine

/-- Everything a step that answers a next state has done. -/
theorem step_next_cases {s t : State} (ht : step s = .next t) :
    (s.edges = [] ∧ t = s) ∨
    ∃ e rest, s.edges = e :: rest ∧
      ((e.rst = true ∧ t = resetEdge e { s with edges := rest }) ∨
       (e.rst = false ∧ e.accepts = true ∧ serve e.req (acceptState e { s with edges := rest }) = .next t) ∨
       (e.rst = false ∧ e.accepts = false ∧ t = waitEdge e { s with edges := rest })) := by
  obtain ⟨hs, he⟩ | ⟨e, rest, hs, ⟨hr, he⟩ | ⟨-, -, he⟩ | ⟨hr, -, ha, he⟩ | ⟨hr, -, ha, he⟩⟩ := step_cases s <;>
    rw [he] at ht
  · exact .inl ⟨hs, (Host.Outcome.next.inj ht).symm⟩
  · exact .inr ⟨e, rest, hs, .inl ⟨hr, (Host.Outcome.next.inj ht).symm⟩⟩
  · cases ht
  · exact .inr ⟨e, rest, hs, .inr (.inl ⟨hr, ha, ht⟩)⟩
  · exact .inr ⟨e, rest, hs, .inr (.inr ⟨hr, ha, (Host.Outcome.next.inj ht).symm⟩)⟩

theorem inv_iff (s : State) :
    s.inv = true ↔ Memory.wf s.fb = true ∧ ∀ r ∈ s.owed, r.wellShaped = true := by
  simp [State.inv]

/-- A state with the same bytes that owes no new response keeps the invariant. -/
theorem inv_of_owed_subset {s t : State} (hfb : t.fb = s.fb) (howed : ∀ r ∈ t.owed, r ∈ s.owed)
    (h : s.inv = true) : t.inv = true := by
  obtain ⟨hwf, hshape⟩ := (inv_iff s).1 h
  exact (inv_iff t).2 ⟨hfb ▸ hwf, fun r hr => hshape r (howed r hr)⟩

/-- A canonical framebuffer and one more well-shaped response keep the invariant. -/
theorem inv_of_owed_append {s : State} (h : s.inv = true) {m : Memory} (hm : Memory.wf m = true) {r : Response}
    (hr : r.wellShaped = true) : State.inv { s with fb := m, owed := s.owed ++ [r] } = true := by
  obtain ⟨-, hshape⟩ := (inv_iff s).1 h
  refine (inv_iff _).2 ⟨hm, fun q hq => ?_⟩
  obtain hq | hq := List.mem_append.1 hq
  · exact hshape q hq
  · rwa [List.mem_singleton.1 hq]

theorem exec_keeps_inv {i : Instr} {s t : State} (h : s.inv = true) (ht : exec i s = .next t) : t.inv = true := by
  have hwf := ((inv_iff s).1 h).1
  obtain ⟨r, hr, he | ⟨-, j, v, -, he⟩ | ⟨-, -, he⟩⟩ := exec_cases i s <;>
    obtain rfl := Host.Outcome.next.inj (he.symm.trans ht)
  · exact inv_of_owed_append h hwf hr
  · exact inv_of_owed_append h (memWrite_wf v hwf (index_lt_framebufferSize j)) hr
  · exact inv_of_owed_append h Memory.wf_nil hr

theorem serve_keeps_inv {w : RequestWord} {s t : State} (h : s.inv = true) (ht : serve w s = .next t) :
    t.inv = true := by
  obtain ⟨i, -, he⟩ | ⟨reason, -, he⟩ := serve_cases w s <;> rw [he] at ht
  · exact exec_keeps_inv h ht
  · obtain rfl := Host.Outcome.next.inj ht
    exact inv_of_owed_append h ((inv_iff s).1 h).1 (by decide)

theorem acceptState_keeps_inv (e : Edge) {s : State} (h : s.inv = true) : (acceptState e s).inv = true :=
  inv_of_owed_subset (acceptState_fb s e) (answerOldest_owed_subset e s) h

theorem waitEdge_keeps_inv (e : Edge) {s : State} (h : s.inv = true) : (waitEdge e s).inv = true :=
  inv_of_owed_subset (waitEdge_fb s e) (answerOldest_owed_subset e s) h

/-- Settles O17: a reset edge empties the framebuffer and the responses owed, an edge outside reset only answers the
oldest response, and the request it may accept stores inside the framebuffer and answers in shape. -/
theorem stepKeepsInvariant : Obligations.StepKeepsInvariant := by
  intro s t h ht
  obtain ⟨-, rfl⟩ | ⟨e, rest, -, ⟨-, rfl⟩ | ⟨-, -, he⟩ | ⟨-, -, rfl⟩⟩ := step_next_cases ht
  · exact h
  · rfl
  · exact serve_keeps_inv (acceptState_keeps_inv e (s := { s with edges := rest }) h) he
  · exact waitEdge_keeps_inv e (s := { s with edges := rest }) h

theorem serve_keeps_cfg {w : RequestWord} {s t : State} (ht : serve w s = .next t) : t.cfg = s.cfg := by
  obtain ⟨fb, he, -⟩ := serve_spec w s
  obtain rfl := Host.Outcome.next.inj (he.symm.trans ht)
  rfl

theorem step_keeps_cfg {s t : State} (ht : step s = .next t) : t.cfg = s.cfg := by
  obtain ⟨-, rfl⟩ | ⟨e, rest, -, ⟨-, rfl⟩ | ⟨-, -, he⟩ | ⟨-, -, rfl⟩⟩ := step_next_cases ht
  · rfl
  · exact resetEdge_cfg _ e
  · exact (serve_keeps_cfg he).trans (acceptState_cfg _ e)
  · exact waitEdge_cfg _ e

/-- Settles O16: the guard is part of the build, which no step changes. -/
theorem guardNeverChanges : Obligations.GuardNeverChanges :=
  fun _ _ ht => congrArg Config.index0Guard (step_keeps_cfg ht)

/-- Settles O20: the response and the bytes are those of the block as R32 states it, which reads the guard, the layout and
the bytes alone. -/
theorem requestsIgnoreThePast : Obligations.RequestsIgnoreThePast := by
  intro w s u hcfg hlayout hbytes
  have hspec : s.spec = u.spec := Prod.ext hlayout (funext hbytes)
  obtain ⟨fb, hs, hfb⟩ := serve_spec w s
  obtain ⟨fb', hu, hfb'⟩ := serve_spec w u
  rw [hcfg, hspec] at hs hfb
  exact ⟨_, _, _, hs, hu, rfl, rfl, hlayout, fun i => (hfb i).trans (hfb' i).symm⟩

end Sys2Proof.Machine

end

/-! ## The state after reset, and a steady reset (R22, R31, R165) -/

section

namespace Sys2Proof.Machine

/-- Settles O14: each field as `State.afterReset` sets it. -/
theorem afterReset : Obligations.AfterReset :=
  ⟨fun _ _ => ⟨rfl, rfl, memRead_nil, rfl, rfl, rfl, rfl, rfl, rfl⟩, rfl⟩

/-- One reset edge whose strap agrees with all that this reset has shown. -/
theorem step_of_steady_reset {s : State} {e : Edge} {rest : List Edge} (hedges : s.edges = e :: rest)
    (hrst : e.rst = true) (hstrap : s.resetStrap = .outside ∨ s.resetStrap = .steady (layoutOfStrap e.strap)) :
    step s =
      .next { State.afterReset s.cfg (layoutOfStrap e.strap) with edges := rest, draws := s.draws } := by
  obtain ⟨-, he⟩ | ⟨hn, -⟩ := resetEdge_cases { s with edges := rest } e
  · simp only [step, hedges, clockEdge, hrst, if_true, he]
  · exact absurd hstrap hn

/-- A reset of `e` and the edges `es` after it, its strap at `b` throughout: from the second edge on, the state before is
itself one of those after reset. -/
theorem run_of_steady_reset {b : BitVec 1} (es : List Edge) {rest : List Edge} :
    ∀ {s : State} {e : Edge}, s.edges = e :: es ++ rest → (∀ d ∈ e :: es, d.rst = true ∧ d.strap = b) →
      (s.resetStrap = .outside ∨ s.resetStrap = .steady (layoutOfStrap b)) →
      Host.Core.run core (es.length + 1) s =
        .next { State.afterReset s.cfg (layoutOfStrap b) with edges := rest, draws := s.draws } := by
  induction es with
  | nil =>
    intro s e hedges hes hseen
    obtain ⟨hrst, rfl⟩ := hes e List.mem_cons_self
    exact run_succ_of_next (step_of_steady_reset hedges hrst hseen)
  | cons e' es ih =>
    intro s e hedges hes hseen
    obtain ⟨hrst, rfl⟩ := hes e List.mem_cons_self
    rw [List.length_cons, run_succ_of_next (step_of_steady_reset hedges hrst hseen),
      ih rfl (fun d hd => hes d (List.mem_cons_of_mem e hd)) (.inr rfl)]
    rfl

/-- Settles O50, by induction on the reset's edges. -/
theorem steadyResetLatchesTheStrap : Obligations.SteadyResetLatchesTheStrap := by
  intro s es rest b hedges hne hes hout
  obtain ⟨e, es, rfl⟩ := List.exists_cons_of_ne_nil hne
  exact run_of_steady_reset es hedges hes (.inl hout)

end Sys2Proof.Machine

end

/-! ## Bits and pixels (R28, R85, R87, R103 to R105) -/

section

namespace Sys2Proof.Machine

/-- The rows of the panel that share one byte: eight in FULL, and four in HALF, each with two bits (R28). -/
def rowsPerByte : Layout → Nat
  | .FULL => 8
  | .HALF => 4

/-- Which of the rows that share a byte bit `k` belongs to (R28). -/
def rowInByte : Layout → Nat → Nat
  | .FULL, k => k
  | .HALF, k => k / 2

/-- The row R28 gives bit `k` of byte `i`, as a number. -/
def pixelRow (layout : Layout) (i : Index) (k : Fin 8) : Nat :=
  rowsPerByte layout * (i.toNat / 128) + rowInByte layout k.val

theorem rowInByte_lt (layout : Layout) (k : Fin 8) : rowInByte layout k.val < rowsPerByte layout := by
  cases layout <;> simp only [rowInByte, rowsPerByte] <;> omega

theorem pixelRow_lt (layout : Layout) (i : Index) (k : Fin 8) : pixelRow layout i k < panelHeight layout := by
  have hi := i.isLt
  cases layout <;> simp only [pixelRow, rowsPerByte, rowInByte, panelHeight] <;> omega

theorem toInt_ofNat_of_lt {n : Nat} (h : n < 128) : (BitVec.ofNat 16 n).toInt = n := by
  have hn : (BitVec.ofNat 16 n).toNat = n := by
    rw [BitVec.toNat_ofNat, Nat.mod_eq_of_lt (by omega)]
  rw [BitVec.toInt_eq_toNat_of_lt (by omega), hn]

theorem pixelX_toInt (i : Index) : (pixelX i).toInt = (i.toNat % 128 : Nat) :=
  toInt_ofNat_of_lt (Nat.mod_lt _ (by decide))

theorem pixelY_toInt (layout : Layout) (i : Index) (k : Fin 8) :
    (pixelY layout i k).toInt = pixelRow layout i k := by
  have hlt : pixelRow layout i k < 128 :=
    Nat.lt_trans (pixelRow_lt layout i k) (Nat.lt_of_le_of_lt (panelHeight_le layout) (by decide))
  cases layout <;> exact toInt_ofNat_of_lt hlt

/-- The byte index of a point on the panel, in either layout (R85, R87). -/
theorem pam_idx_toNat {layout : Layout} {x y : Coord} (h : onPanel layout x y = true) :
    ((pam layout x y).idx.toNat : Int) = x.toInt + y.toInt / rowsPerByte layout * 128 := by
  obtain ⟨hx0, hx, hy0, hy⟩ := (onPanel_iff layout x y).1 h
  rw [pam_of_onPanel h]
  cases layout <;> simp only [panelHeight, mapOnPanel, doubledRow, rowsPerByte] at hy ⊢
  all_goals
    rw [byteIndex_toNat (by omega) (by omega)]
    omega

/-- The mask bits of a point on the panel are those of its row (R85, R87). -/
theorem pam_mask_getLsbD {layout : Layout} {x y : Coord} (h : onPanel layout x y = true) (k : Nat) :
    (pam layout x y).mask.getLsbD k = true ↔ (rowInByte layout k : Int) = y.toInt % rowsPerByte layout := by
  obtain ⟨-, -, hy0, -⟩ := (onPanel_iff layout x y).1 h
  rw [pam_of_onPanel h]
  cases layout <;> simp only [mapOnPanel, rowInByte, rowsPerByte]
  · rw [bitMask_getLsbD, decide_eq_true_iff]
    omega
  · rw [halfMask_getLsbD, decide_eq_true_iff]
    omega

/-- The row of a bit, told by its quotient and remainder by the rows that share a byte. -/
theorem eq_pixelRow_iff (layout : Layout) (i : Index) (k : Fin 8) (y : Int) :
    y = pixelRow layout i k ↔
      y / rowsPerByte layout = (i.toNat / 128 : Nat) ∧ (rowInByte layout k.val : Int) = y % rowsPerByte layout := by
  have hlt := rowInByte_lt layout k
  cases layout <;> simp only [pixelRow, rowsPerByte] at hlt ⊢ <;> omega

theorem onPanel_pixel (layout : Layout) (i : Index) (k : Fin 8) :
    onPanel layout (pixelX i) (pixelY layout i k) = true := by
  have hrow := pixelRow_lt layout i k
  rw [onPanel_iff, pixelX_toInt, pixelY_toInt]
  omega

/-- R28: the mapper sends a point to a bit exactly when the point is the bit's pixel. -/
theorem pam_hits_iff (layout : Layout) (x y : Coord) (i : Index) (k : Fin 8) :
    ((pam layout x y).valid = true ∧ (pam layout x y).idx = i ∧ (pam layout x y).mask.getLsbD k.val = true) ↔
      x = pixelX i ∧ y = pixelY layout i k := by
  have hpixel : (x = pixelX i ∧ y = pixelY layout i k) ↔
      x.toInt = (i.toNat % 128 : Nat) ∧ y.toInt / rowsPerByte layout = (i.toNat / 128 : Nat) ∧
        (rowInByte layout k.val : Int) = y.toInt % rowsPerByte layout := by
    rw [← BitVec.toInt_inj, ← BitVec.toInt_inj, pixelX_toInt, pixelY_toInt, eq_pixelRow_iff]
  rw [pam_valid]
  constructor
  · rintro ⟨hon, rfl, hmask⟩
    obtain ⟨hx0, hx, -, -⟩ := (onPanel_iff layout x y).1 hon
    have hidx := pam_idx_toNat hon
    exact hpixel.2 ⟨by omega, by omega, (pam_mask_getLsbD hon k.val).1 hmask⟩
  · intro h
    obtain ⟨hx, hy, hrow⟩ := hpixel.1 h
    have hon : onPanel layout x y = true := by
      rw [h.1, h.2]
      exact onPanel_pixel layout i k
    have hidx := pam_idx_toNat hon
    exact ⟨hon, BitVec.eq_of_toNat_eq (by omega), (pam_mask_getLsbD hon k.val).2 hrow⟩

/-- Settles O28: both sides name the pixel of R28, which the mapper sends back to its own bit. -/
theorem everyBitBelongsToOnePixel : Obligations.EveryBitBelongsToOnePixel := by
  intro layout i k
  refine ⟨fun x y => ?_, (pam_hits_iff layout _ _ i k).2 ⟨rfl, rfl⟩⟩
  rw [pam_hits_iff, ← BitVec.toInt_inj, ← BitVec.toInt_inj, pixelX_toInt, pixelY_toInt]
  cases layout <;> rfl

theorem ownsBit_iff (layout : Layout) (x y : Coord) (i : Index) (k : Fin 8) :
    ownsBit layout x y i k = true ↔
      (pam layout x y).valid = true ∧ (pam layout x y).idx = i ∧ (pam layout x y).mask.getLsbD k.val = true := by
  rw [pam_hits_iff]
  exact decide_eq_true_iff

/-- What a write mode makes of a bit inside the mask (R100). -/
def WriteMode.onBit : WriteMode → Bool → Bool
  | .ADD, _ => true
  | .SUBTRACT, _ => false
  | .INVERT, b => !b

theorem combine_getLsbD (mode : WriteMode) (old m : Byte) {k : Nat} (hk : k < 8) :
    (combine mode old m).getLsbD k = if m.getLsbD k then mode.onBit (old.getLsbD k) else old.getLsbD k := by
  cases mode <;> simp only [combine, WriteMode.onBit]
  · rw [BitVec.getLsbD_or]
    cases m.getLsbD k <;> simp
  · rw [BitVec.getLsbD_and, BitVec.getLsbD_not]
    cases m.getLsbD k <;> simp [hk]
  · rw [BitVec.getLsbD_xor]
    cases m.getLsbD k <;> simp

/-- A PLOT on the panel that passes the bounds check acts on the bits of its pixel alone (R28, R102). -/
theorem fbRead_plot_getLsbD (mode : WriteMode) {x y : Coord} {s : State} (hon : onPanel s.layout_q x y = true)
    (hok : indexOK s.cfg (pam s.layout_q x y).idx = true) (i : Index) (k : Fin 8) :
    (fbRead (plot mode x y s) i).getLsbD k.val =
      if ownsBit s.layout_q x y i k then mode.onBit ((fbRead s i).getLsbD k.val)
      else (fbRead s i).getLsbD k.val := by
  simp only [ownsBit_iff, pam_valid, hon, true_and]
  obtain ⟨hoff, -⟩ | ⟨-, hbad, -⟩ | ⟨-, -, he⟩ := plot_cases mode x y s
  · simp [hon] at hoff
  · simp [hok] at hbad
  · rw [he, fbRead_respond, fbRead_fbWrite]
    by_cases hi : (pam s.layout_q x y).idx = i
    · subst hi
      rw [if_pos rfl, combine_getLsbD _ _ _ k.isLt]
      simp
    · simp [hi, Ne.symm hi]

/-- Byte 0 holds the first rows of column 0 and no other pixel (R28). -/
theorem pam_idx_ne_zero {layout : Layout} {x y : Coord} (hon : onPanel layout x y = true)
    (h : x.toInt ≠ 0 ∨ (rowsPerByte layout : Int) ≤ y.toInt) : (pam layout x y).idx ≠ 0 := by
  intro h0
  have hidx := pam_idx_toNat hon
  obtain ⟨hx0, -, hy0, -⟩ := (onPanel_iff layout x y).1 hon
  rw [h0, show (0 : Index).toNat = 0 from rfl] at hidx
  cases layout <;> simp only [rowsPerByte] at h hidx <;> omega

/-- Settles O35: the point is on the panel and its index passes the bounds check, so each mode does to the bits of the
pixel what `WriteMode.onBit` says. -/
theorem plotsActOnTheirPixel : Obligations.PlotsActOnTheirPixel := by
  intro x y s hx0 hx hy0 hy hguard
  have hon := (onPanel_iff s.layout_q x y).2 ⟨hx0, hx, hy0, hy⟩
  have hok : indexOK s.cfg (pam s.layout_q x y).idx = true := by
    refine (indexOK_iff s.cfg _).2 (hguard.imp_right fun h => pam_idx_ne_zero hon ?_)
    cases hl : s.layout_q <;> simpa [hl, rowsPerByte] using h
  exact ⟨⟨_, rfl, fbRead_plot_getLsbD .ADD hon hok⟩, ⟨_, rfl, fbRead_plot_getLsbD .SUBTRACT hon hok⟩,
    ⟨_, rfl, fbRead_plot_getLsbD .INVERT hon hok⟩⟩

end Sys2Proof.Machine

end

/-! ## Which requests change a byte (R47, R48, R102, R121, R122, R143) -/

section

namespace Sys2Proof.Machine

/-- An operation changes a byte only if it is CLR or stores to that byte. -/
theorem writer_of_exec_changes_byte {i : Instr} {s t : State} {a : Nat} (ht : exec i s = .next t)
    (ha : memRead t.fb a ≠ memRead s.fb a) : i = .clr ∨ ∃ j : Index, j.toNat = a ∧ StoresTo i s j := by
  obtain ⟨r, -, he | ⟨-, j, v, hj, he⟩ | ⟨-, hclr, -⟩⟩ := exec_cases i s
  · obtain rfl := Host.Outcome.next.inj (he.symm.trans ht)
    exact absurd rfl ha
  · obtain rfl := Host.Outcome.next.inj (he.symm.trans ht)
    have hja : a = j.toNat := Decidable.byContradiction fun hne => ha (memRead_memWrite_other s.fb v hne)
    exact .inr ⟨j, hja.symm, hj⟩
  · exact .inl hclr

/-- A request word that changes a byte decodes to CLR or to an operation that stores to that byte. -/
theorem writer_of_serve_changes_byte {w : RequestWord} {s t : State} {a : Nat} (ht : serve w s = .next t)
    (ha : memRead t.fb a ≠ memRead s.fb a) :
    ∃ i, decode w = .instr i ∧ (i = .clr ∨ ∃ j : Index, j.toNat = a ∧ StoresTo i s j) := by
  obtain ⟨i, hd, he⟩ | ⟨reason, -, he⟩ := serve_cases w s
  · exact ⟨i, hd, writer_of_exec_changes_byte (he.symm.trans ht) ha⟩
  · obtain rfl := Host.Outcome.next.inj (he.symm.trans ht)
    exact absurd rfl ha

/-- Who may store to a byte depends on the layout and the guard alone. -/
theorem StoresTo.congr {i : Instr} {s u : State} {j : Index} (h : StoresTo i s j) (hlayout : u.layout_q = s.layout_q)
    (hcfg : u.cfg = s.cfg) : StoresTo i u j := by
  rwa [StoresTo, hlayout, hcfg]

/-- An index that passes the bounds check of a guarded block is not 0 (R101). -/
theorem toNat_ne_zero_of_indexOK {cfg : Config} {j : Index} (hok : indexOK cfg j = true)
    (hg : cfg.index0Guard = true) : j.toNat ≠ 0 := by
  intro h0
  have hj : j = 0 := BitVec.eq_of_toNat_eq h0
  rw [hj, indexOK_zero_of_guarded hg] at hok
  exact Bool.false_ne_true hok

/-- Settles O18: of the edges a step can be, a waiting one keeps the framebuffer, and an accepting one changes only the
byte its operation stores to, which of a guarded block has passed the bounds check, or is CLR. -/
theorem bytesChangeOnlyByTheirWriters : Obligations.BytesChangeOnlyByTheirWriters := by
  intro s t a ht ha
  obtain ⟨-, rfl⟩ | ⟨e, rest, hs, ⟨hr, -⟩ | ⟨-, hacc, he⟩ | ⟨-, -, rfl⟩⟩ := step_next_cases ht
  · exact absurd rfl ha
  · exact ⟨e, rest, hs, .inl hr⟩
  · refine ⟨e, rest, hs, .inr ⟨hacc, ?_⟩⟩
    obtain ⟨i, hd, rfl | ⟨j, rfl, hj⟩⟩ := writer_of_serve_changes_byte he (by rwa [acceptState_fb])
    · exact .inl hd
    · obtain ⟨v, rfl⟩ | ⟨x, y, hi, hon, rfl, hok⟩ := hj.congr (u := s) (by simp) (by simp)
      · exact .inr (.inl ⟨j, v, hd, rfl⟩)
      · exact .inr (.inr ⟨x, y, i, hi, hd, by rwa [pam_valid], rfl, toNat_ne_zero_of_indexOK hok⟩)
  · exact absurd (congrArg (memRead · a) (waitEdge_fb _ e)) ha

end Sys2Proof.Machine

end

/-! ## Any timing gives the results of one request at a time (R32, R46, R60, R168, R169) -/

section

namespace Sys2Proof.Machine

/-- The block of R32 performs two lists of words as it performs the first and then, from there, the second. -/
theorem specRun_append (cfg : Config) (ws vs : List RequestWord) (σ : SpecState) :
    specRun cfg (ws ++ vs) σ =
      ((specRun cfg vs (specRun cfg ws σ).1).1, (specRun cfg ws σ).2 ++ (specRun cfg vs (specRun cfg ws σ).1).2) := by
  induction ws generalizing σ with
  | nil => rfl
  | cons w ws ih => simp only [List.cons_append, specRun, ih]

/-- The word an edge accepts, if it accepts one (R60). -/
def Edge.acceptedWord (e : Edge) : List RequestWord := if e.accepts then [e.req] else []

theorem acceptedWords_cons (e : Edge) (es : List Edge) :
    acceptedWords (e :: es) = e.acceptedWord ++ acceptedWords es := by
  cases h : e.accepts <;> simp [acceptedWords, Edge.acceptedWord, h]

/-- The machine comes from `s` to `t` as the block of R32 does with the words `ws`, while it gives the response words
`given`: these and those still owed are those owed before and then the block's own. -/
def Performs (ws : List RequestWord) (given : List ResponseWord) (s t : State) : Prop :=
  t.spec = (specRun s.cfg ws s.spec).1 ∧
  given ++ t.owed.map Response.pack =
    s.owed.map Response.pack ++ (specRun s.cfg ws s.spec).2.map Response.pack

theorem performs_nil (s : State) : Performs [] [] s s := ⟨rfl, (List.append_nil _).symm⟩

theorem Performs.append {ws vs : List RequestWord} {given given' : List ResponseWord} {s u t : State}
    (h : Performs ws given s u) (h' : Performs vs given' u t) (hcfg : u.cfg = s.cfg) :
    Performs (ws ++ vs) (given ++ given') s t := by
  obtain ⟨hspec, hwords⟩ := h
  obtain ⟨hspec', hwords'⟩ := h'
  rw [hcfg, hspec] at hspec' hwords'
  rw [Performs, specRun_append]
  refine ⟨hspec', ?_⟩
  rw [List.append_assoc, hwords', ← List.append_assoc, hwords, List.append_assoc, List.map_append]

/-- The answering side of an edge, whatever else it does outside the architectural state, performs no word. -/
theorem performs_answerOldest (e : Edge) {s t : State} (hlayout : t.layout_q = s.layout_q) (hfb : t.fb = s.fb)
    (howed : t.owed = (answerOldest e s).owed) : Performs [] (answerOldest e s).rsp.toList s t := by
  refine ⟨Prod.ext hlayout (funext (fbRead_congr hfb)), ?_⟩
  rw [howed, answerOldest_words]
  exact (List.append_nil _).symm

/-- One accepted word is performed as the block of R32 does, and answered later. -/
theorem performs_serve {w : RequestWord} {s t : State} (ht : serve w s = .next t) : Performs [w] [] s t := by
  obtain ⟨fb, he, hfb⟩ := serve_spec w s
  obtain rfl := Host.Outcome.next.inj (he.symm.trans ht)
  exact ⟨Prod.ext (specRequest_layout s.cfg w s.spec).symm (funext hfb), List.map_append⟩

/-- A request neither answers an earlier one nor uses up an edge: the port does (R60). -/
theorem serve_keeps_port {w : RequestWord} {s t : State} (ht : serve w s = .next t) :
    t.rsp = s.rsp ∧ t.edges = s.edges := by
  obtain ⟨fb, he, -⟩ := serve_spec w s
  obtain rfl := Host.Outcome.next.inj (he.symm.trans ht)
  exact ⟨rfl, rfl⟩

/-- An edge that accepts a word answers the oldest request first (log 17), then performs the word. -/
theorem performs_accept {e : Edge} {s t : State} (hacc : e.accepts = true)
    (ht : serve e.req (acceptState e s) = .next t) : Performs e.acceptedWord t.rsp.toList s t := by
  have hanswer := performs_answerOldest e (acceptState_layout_q s e) (acceptState_fb s e) (acceptState_owed s e)
  rw [(serve_keeps_port ht).1, acceptState_rsp, Edge.acceptedWord, if_pos hacc]
  simpa using hanswer.append (performs_serve ht) (acceptState_cfg s e)

theorem performs_wait {e : Edge} (s : State) (hacc : e.accepts = false) :
    Performs e.acceptedWord (waitEdge e s).rsp.toList s (waitEdge e s) := by
  rw [waitEdge_rsp, Edge.acceptedWord, if_neg (Bool.eq_false_iff.1 hacc)]
  exact performs_answerOldest e (waitEdge_layout_q s e) (waitEdge_fb s e) (waitEdge_owed s e)

/-- One edge outside reset is used up, and performs the word it accepts, if it accepts one. -/
theorem performs_step {s t : State} {e : Edge} {rest : List Edge} (hedges : s.edges = e :: rest)
    (hrst : e.rst = false) (ht : step s = .next t) :
    t.edges = rest ∧ Performs e.acceptedWord t.rsp.toList s t := by
  obtain ⟨hnil, -⟩ | ⟨e', rest', hs, hcase⟩ := step_next_cases ht
  · exact absurd (hnil.symm.trans hedges) (List.cons_ne_nil e rest).symm
  · obtain ⟨rfl, rfl⟩ := List.cons.inj (hedges.symm.trans hs)
    obtain ⟨hr, -⟩ | ⟨-, hacc, he⟩ | ⟨-, hacc, rfl⟩ := hcase
    · exact absurd (hrst.symm.trans hr) Bool.false_ne_true
    · exact ⟨(serve_keeps_port he).2.trans (acceptState_edges _ e), performs_accept (s := { s with edges := rest }) hacc he⟩
    · exact ⟨waitEdge_edges _ e, performs_wait { s with edges := rest } hacc⟩

/-- A run over edges outside reset performs the words they accept. -/
theorem performs_run {k : Nat} : ∀ {s t : State}, k ≤ s.edges.length → (∀ e ∈ s.edges.take k, e.rst = false) →
    Host.Core.run core k s = .next t → Performs (acceptedWords (s.edges.take k)) (answeredWords k s) s t := by
  induction k with
  | zero =>
    intro s t _ _ hrun
    obtain rfl := Host.Outcome.next.inj hrun
    exact performs_nil s
  | succ k ih =>
    intro s t hk hes hrun
    obtain ⟨u, hstep, hrun⟩ := run_succ_next hrun
    obtain ⟨e, rest, hedges⟩ := List.exists_cons_of_length_pos (Nat.lt_of_lt_of_le k.succ_pos hk)
    rw [hedges, List.take_succ_cons] at hes ⊢
    rw [hedges, List.length_cons, Nat.succ_le_succ_iff] at hk
    obtain ⟨rfl, hfirst⟩ := performs_step hedges (hes e List.mem_cons_self) hstep
    have hrest := ih hk (fun d hd => hes d (List.mem_cons_of_mem e hd)) hrun
    rw [acceptedWords_cons, answeredWords, hstep]
    exact hfirst.append hrest (step_keeps_cfg hstep)

/-- Settles O19, by induction on the edges: each performs the word it accepts as the block of R32 does, and its answer
takes the oldest response from those owed. -/
theorem runsAreSequential : Obligations.RunsAreSequential :=
  fun _ _ _ => performs_run

end Sys2Proof.Machine

end

/-! ## Pages and columns (R40, R45) -/

section

namespace Sys2Proof.Machine

theorem pageOf_toNat (i : Index) : (pageOf i).toNat = i.toNat / 128 := by
  have hi := i.isLt
  rw [pageOf, BitVec.extractLsb'_toNat, Nat.shiftRight_eq_div_pow]
  omega

theorem columnOf_toNat (i : Index) : (columnOf i).toNat = i.toNat % 128 := by
  rw [columnOf, BitVec.extractLsb'_toNat, Nat.shiftRight_zero]

/-- Settles O29: the mapped index is `x` and 128 for each group of rows that share a byte. -/
theorem pagesHoldTheirRows : Obligations.PagesHoldTheirRows := by
  refine ⟨fun i => ⟨pageOf_toNat i, columnOf_toNat i⟩, fun layout x y hvalid => ?_⟩
  have hon : onPanel layout x y = true := by rwa [pam_valid] at hvalid
  obtain ⟨hx0, hx, hy0, -⟩ := (onPanel_iff layout x y).1 hon
  have hidx := pam_idx_toNat hon
  rw [pageOf_toNat, columnOf_toNat]
  cases layout <;> simp only [rowsPerByte] at hidx ⊢ <;> omega

end Sys2Proof.Machine

end

/-! ## A store or a PLOT done twice (R102, R107, R121) -/

section

namespace Sys2Proof.Machine

theorem memErase_memErase (m : Memory) (a : Nat) : memErase (memErase m a) a = memErase m a := by
  induction m with
  | nil => rfl
  | cons c m ih =>
    obtain ⟨b, v⟩ := c
    by_cases h : a = b
    · subst h
      simp [memErase, ih]
    · simp [memErase, h, ih]

/-- Dropping what has just been put in leaves the rest. -/
theorem memErase_memInsert (m : Memory) (a : Nat) (v : Byte) : memErase (memInsert m a v) a = memErase m a := by
  induction m with
  | nil => simp [memInsert, memErase]
  | cons c m ih =>
    obtain ⟨b, u⟩ := c
    by_cases hlt : a < b
    · simp [memInsert, hlt, memErase]
    · simp [memInsert, hlt, memErase, ih]

theorem memErase_memWrite (m : Memory) (a : Nat) (v : Byte) : memErase (memWrite m a v) a = memErase m a := by
  unfold memWrite
  split
  · exact memErase_memErase m a
  · rw [memErase_memInsert, memErase_memErase]

/-- Of two stores to one address the second alone remains. -/
@[simp] theorem memWrite_memWrite (m : Memory) (a : Nat) (v w : Byte) :
    memWrite (memWrite m a v) a w = memWrite m a w := by
  rw [memWrite, memErase_memWrite, ← memWrite]

/-- The PLOT writes: its point is on the panel and its index passes the bounds check (R102). -/
def PlotWrites (s : State) (x y : Coord) : Prop :=
  onPanel s.layout_q x y = true ∧ indexOK s.cfg (pam s.layout_q x y).idx = true

/-- A PLOT changes the framebuffer by one store, where it writes, and never the layout or the guard. -/
theorem plot_effect (mode : WriteMode) (x y : Coord) (s : State) :
    (plot mode x y s).layout_q = s.layout_q ∧ (plot mode x y s).cfg = s.cfg ∧
    (PlotWrites s x y → (plot mode x y s).fb = memWrite s.fb (pam s.layout_q x y).idx.toNat
      (combine mode (fbRead s (pam s.layout_q x y).idx) (pam s.layout_q x y).mask)) ∧
    (¬ PlotWrites s x y → (plot mode x y s).fb = s.fb) := by
  obtain ⟨hoff, h⟩ | ⟨-, hbad, h⟩ | ⟨hon, hok, h⟩ := plot_cases mode x y s
  · simp [h, PlotWrites, hoff]
  · simp [h, PlotWrites, hbad]
  · simp [h, PlotWrites, hon, hok]

@[simp] theorem plot_layout_q (mode : WriteMode) (x y : Coord) (s : State) :
    (plot mode x y s).layout_q = s.layout_q := (plot_effect mode x y s).1

@[simp] theorem plot_cfg (mode : WriteMode) (x y : Coord) (s : State) : (plot mode x y s).cfg = s.cfg :=
  (plot_effect mode x y s).2.1

theorem plot_fb_of_writes (mode : WriteMode) {x y : Coord} {s : State} (h : PlotWrites s x y) :
    (plot mode x y s).fb = memWrite s.fb (pam s.layout_q x y).idx.toNat
      (combine mode (fbRead s (pam s.layout_q x y).idx) (pam s.layout_q x y).mask) :=
  (plot_effect mode x y s).2.2.1 h

theorem plot_fb_of_not_writes (mode : WriteMode) {x y : Coord} {s : State} (h : ¬ PlotWrites s x y) :
    (plot mode x y s).fb = s.fb :=
  (plot_effect mode x y s).2.2.2 h

@[simp] theorem plotWrites_plot (mode : WriteMode) (x y : Coord) (s : State) :
    PlotWrites (plot mode x y s) x y ↔ PlotWrites s x y := by
  simp only [PlotWrites, plot_layout_q, plot_cfg]

theorem fbRead_plot_of_writes (mode : WriteMode) {x y : Coord} {s : State} (h : PlotWrites s x y) :
    fbRead (plot mode x y s) (pam s.layout_q x y).idx =
      combine mode (fbRead s (pam s.layout_q x y).idx) (pam s.layout_q x y).mask := by
  rw [fbRead, plot_fb_of_writes mode h, memRead_memWrite_same]

/-- Two PLOTs of one point in one mode store once, the byte combined twice. -/
theorem plot_plot_fb (mode : WriteMode) {x y : Coord} {s : State} (h : PlotWrites s x y) :
    (plot mode x y (plot mode x y s)).fb = memWrite s.fb (pam s.layout_q x y).idx.toNat
      (combine mode (combine mode (fbRead s (pam s.layout_q x y).idx) (pam s.layout_q x y).mask)
        (pam s.layout_q x y).mask) := by
  rw [plot_fb_of_writes mode ((plotWrites_plot mode x y s).2 h), plot_layout_q, fbRead_plot_of_writes mode h,
    plot_fb_of_writes mode h, memWrite_memWrite]

/-- Setting or clearing the bits of a mask twice is doing it once (R107). -/
theorem combine_combine {mode : WriteMode} (hmode : mode ≠ .INVERT) (b m : Byte) :
    combine mode (combine mode b m) m = combine mode b m := by
  cases mode with
  | ADD => rw [combine, combine, BitVec.or_assoc, BitVec.or_self]
  | SUBTRACT => rw [combine, combine, BitVec.and_assoc, BitVec.and_self]
  | INVERT => exact absurd rfl hmode

/-- Inverting the bits of a mask twice restores them (R107). -/
theorem combine_invert_invert (b m : Byte) : combine .INVERT (combine .INVERT b m) m = b := by
  rw [combine, combine, BitVec.xor_assoc, BitVec.xor_self, BitVec.xor_zero]

theorem plot_plot_fb_of_ne_invert {mode : WriteMode} (hmode : mode ≠ .INVERT) (x y : Coord) (s : State) :
    (plot mode x y (plot mode x y s)).fb = (plot mode x y s).fb := by
  by_cases h : PlotWrites s x y
  · rw [plot_plot_fb mode h, combine_combine hmode, plot_fb_of_writes mode h]
  · exact plot_fb_of_not_writes mode fun h' => h ((plotWrites_plot mode x y s).1 h')

theorem memRead_plot_invert_twice (x y : Coord) (s : State) (a : Nat) :
    memRead (plot .INVERT x y (plot .INVERT x y s)).fb a = memRead s.fb a := by
  by_cases h : PlotWrites s x y
  · rw [plot_plot_fb .INVERT h, combine_invert_invert, memRead_memWrite]
    split
    · next ha => rw [ha, fbRead]
    · rfl
  · rw [plot_fb_of_not_writes _ fun h' => h ((plotWrites_plot .INVERT x y s).1 h'), plot_fb_of_not_writes _ h]

/-- A point on the panel has a bit in its mask (R85, R87). -/
theorem pam_mask_ne_zero {layout : Layout} {x y : Coord} (hon : onPanel layout x y = true) :
    (pam layout x y).mask ≠ 0 := by
  intro h0
  have hmask := pam_mask_getLsbD hon
  simp only [h0, BitVec.ofNat_eq_ofNat, BitVec.getLsbD_zero, Bool.false_eq_true, false_iff] at hmask
  cases layout <;> simp only [rowInByte, rowsPerByte] at hmask
  · exact hmask (y.toInt % 8).toNat (by omega)
  · exact hmask (2 * (y.toInt % 4).toNat) (by omega)

/-- Inverting a bit changes the byte. -/
theorem combine_invert_ne {m : Byte} (hm : m ≠ 0) (b : Byte) : combine .INVERT b m ≠ b := by
  intro h
  exact hm ((BitVec.xor_right_inj b).1 (h.trans BitVec.xor_zero.symm))

end Sys2Proof.Machine

end

/-! ## Repeated requests (R48) -/

section

namespace Sys2Proof.Machine

/-- RDB and MAP only answer, with the response of R32's block. -/
theorem exec_of_rdb_or_map {i : Instr} (hi : (∃ idx, i = .rdb idx) ∨ ∃ x y, i = .map x y) (s : State) :
    exec i s = .next { s with owed := s.owed ++ [(specOp s.cfg i s.spec).2] } := by
  obtain ⟨idx, rfl⟩ | ⟨x, y, rfl⟩ := hi
  · rfl
  · cases h : onPanel s.layout_q x y <;>
      simp [exec, execMap, specOp, State.spec, h, respond, pointResponse, plainResponse]

/-- Settles O45: RDB and MAP change nothing that their answers depend on; a second store to a byte, of the same value or of
the same bits set or cleared, stores what is there; and two inversions cancel. -/
theorem repeatedRequests : Obligations.RepeatedRequests := by
  refine ⟨fun i s hi => ?_, fun i s hi => ?_, fun x y s => ⟨_, _, rfl, rfl, memRead_plot_invert_twice x y s, ?_⟩⟩
  · exact ⟨_, _, _, exec_of_rdb_or_map hi s, exec_of_rdb_or_map hi _, rfl, rfl, rfl, rfl⟩
  · obtain ⟨idx, v, rfl⟩ | rfl | ⟨x, y, rfl | rfl⟩ := hi
    · exact ⟨_, _, rfl, rfl, memWrite_memWrite s.fb idx.toNat v v, rfl⟩
    · exact ⟨_, _, rfl, rfl, rfl, rfl⟩
    · exact ⟨_, _, rfl, rfl, plot_plot_fb_of_ne_invert (by decide) x y s, plot_layout_q _ x y _⟩
    · exact ⟨_, _, rfl, rfl, plot_plot_fb_of_ne_invert (by decide) x y s, plot_layout_q _ x y _⟩
  · intro hvalid hguard
    rw [pam_valid] at hvalid
    have hwrites : PlotWrites s x y := ⟨hvalid, (indexOK_iff s.cfg _).2 hguard⟩
    have hsecond := fbRead_plot_of_writes .INVERT ((plotWrites_plot .INVERT x y s).2 hwrites)
    rw [plot_layout_q] at hsecond
    rw [hsecond]
    exact combine_invert_ne (pam_mask_ne_zero hvalid) _

end Sys2Proof.Machine

end

/-! ## The read-out of a transmission (R44, R120) -/

section

namespace Sys2Proof.Machine

/-- RDBs of a list of indices answer with their bytes, in order, and change nothing but the responses owed. -/
theorem execAll_rdb (is : List Index) (s : State) :
    execAll (is.map .rdb) s =
      .next { s with owed := s.owed ++ is.map fun i => plainResponse .DONE (fbRead s i) } := by
  induction is generalizing s with
  | nil => simp [execAll]
  | cons i is ih =>
    have hfirst : exec (.rdb i) s = .next { s with owed := s.owed ++ [plainResponse .DONE (fbRead s i)] } := rfl
    simp only [List.map_cons, execAll, hfirst, ih, List.append_assoc, List.singleton_append]
    rfl

theorem transmitRequests_eq : transmitRequests = ((List.range 1024).map (BitVec.ofNat 10)).map .rdb := by
  rw [transmitRequests, framebufferSize, List.map_map, Function.comp_def]

theorem fbRead_ofNat (s : State) {a : Nat} (ha : a < 1024) : fbRead s (BitVec.ofNat 10 a) = memRead s.fb a := by
  rw [fbRead, BitVec.toNat_ofNat, Nat.mod_eq_of_lt ha]

/-- Settles O47: the indices of the read-out are 0 to 1023 in ascending order, and each RDB answers with its byte. -/
theorem transmitReadsInOrder : Obligations.TransmitReadsInOrder := by
  intro s
  rw [transmitRequests_eq, execAll_rdb]
  refine ⟨_, rfl, ?_, ?_⟩
  · rw [List.map_map, List.map_map]
    exact List.map_congr_left fun a ha => fbRead_ofNat s (List.mem_range.1 ha)
  · intro r hr
    obtain ⟨i, -, rfl⟩ := List.mem_map.1 hr
    rfl

end Sys2Proof.Machine

end

/-! ## What a written statement stands for (R70, R73) -/

section

namespace Sys2Proof.Machine

/-- Two coordinates in range write the operation with their values, whichever operation of two coordinates it is. -/
theorem writesCoords_iff (x y : Operand) (op : Coord → Coord → Instr) (i : Instr) :
    (∃ a b, WritesCoord x a ∧ WritesCoord y b ∧ i = op a b) ↔
      (x.isCoord && y.isCoord) = true ∧ i = op (coordOf x) (coordOf y) := by
  simp only [writesCoord_iff, Bool.and_eq_true]
  constructor
  · rintro ⟨_, _, ⟨hx, rfl⟩, ⟨hy, rfl⟩, rfl⟩
    exact ⟨⟨hx, hy⟩, rfl⟩
  · rintro ⟨⟨hx, hy⟩, rfl⟩
    exact ⟨_, _, ⟨hx, rfl⟩, ⟨hy, rfl⟩, rfl⟩

/-- A statement writes an operation exactly when its operands are in range and have the operation's values (R73). -/
theorem writes_iff (src : Source) (i : Instr) : Writes src i ↔ src.wellFormed = true ∧ i = instrOf src := by
  cases src with
  | nop => exact ⟨fun h => ⟨rfl, h⟩, And.right⟩
  | map x y => exact writesCoords_iff x y .map i
  | plotAdd x y => exact writesCoords_iff x y .plotAdd i
  | plotSub x y => exact writesCoords_iff x y .plotSub i
  | plotInv x y => exact writesCoords_iff x y .plotInv i
  | rdb idx =>
    simp only [Writes, writesIndex_iff, Source.wellFormed, instrOf, and_assoc, exists_and_left, exists_eq_left]
  | wrb idx data =>
    simp only [Writes, writesIndex_iff, writesByte_iff, Source.wellFormed, instrOf, Bool.and_eq_true]
    constructor
    · rintro ⟨_, _, ⟨hj, rfl⟩, ⟨hd, rfl⟩, rfl⟩
      exact ⟨⟨hj, hd⟩, rfl⟩
    · rintro ⟨⟨hj, hd⟩, rfl⟩
      exact ⟨_, _, ⟨hj, rfl⟩, ⟨hd, rfl⟩, rfl⟩
  | clr => exact ⟨fun h => ⟨rfl, h⟩, And.right⟩

theorem assembleSource_eq_instr_iff (src : Source) (i : Instr) : assembleSource src = .instr i ↔ Writes src i := by
  rw [writes_iff, assembleSource]
  cases src.wellFormed <;> simp [eq_comm]

theorem assembleSource_eq_outOfRange_iff (src : Source) :
    assembleSource src = .outOfRange ↔ ¬ ∃ i, Writes src i := by
  simp only [writes_iff, assembleSource]
  cases src.wellFormed <;> simp

/-- Settles O49: a statement writes an operation exactly when each operand passes its own range check, and the assembler
refuses it otherwise. -/
theorem assemblerRefusesOutOfRange : Obligations.AssemblerRefusesOutOfRange :=
  fun src => ⟨assembleSource_eq_instr_iff src, assembleSource_eq_outOfRange_iff src⟩

theorem writesCoord_dec_toInt (c : Coord) : WritesCoord (.dec c.toInt) c := by
  have hlow := c.le_toInt
  have hhigh := c.toInt_lt
  exact ⟨by omega, by omega, rfl⟩

theorem writesIndex_dec_toNat (j : Index) : WritesIndex (.dec j.toNat) j := by
  have hlt := j.isLt
  exact ⟨Int.natCast_nonneg _, by rw [Operand.value]; omega, rfl⟩

theorem writesByte_dec_toNat (d : Byte) : WritesByte (.dec d.toNat) d := by
  have hlt := d.isLt
  exact ⟨Int.natCast_nonneg _, by rw [Operand.value]; omega, rfl⟩

/-- The decimal statement of an operation writes that operation: its operands' widths keep them in range (R70). -/
theorem writes_toSource (i : Instr) : Writes i.toSource i := by
  cases i with
  | nop => rfl
  | map x y => exact ⟨x, y, writesCoord_dec_toInt x, writesCoord_dec_toInt y, rfl⟩
  | plotAdd x y => exact ⟨x, y, writesCoord_dec_toInt x, writesCoord_dec_toInt y, rfl⟩
  | plotSub x y => exact ⟨x, y, writesCoord_dec_toInt x, writesCoord_dec_toInt y, rfl⟩
  | plotInv x y => exact ⟨x, y, writesCoord_dec_toInt x, writesCoord_dec_toInt y, rfl⟩
  | rdb idx => exact ⟨idx, writesIndex_dec_toNat idx, rfl⟩
  | wrb idx data => exact ⟨idx, data, writesIndex_dec_toNat idx, writesByte_dec_toNat data, rfl⟩
  | clr => rfl

theorem instr_wellFormed (i : Instr) : i.wellFormed = true :=
  ((writes_iff i.toSource i).1 (writes_toSource i)).1

theorem assembleSource_toSource (i : Instr) : assembleSource i.toSource = .instr i :=
  (assembleSource_eq_instr_iff i.toSource i).2 (writes_toSource i)

end Sys2Proof.Machine

end

/-! ## Encoding and decoding are inverse (R61 to R66, R69, R70, R72) -/

section

namespace Sys2Proof

/-- A word whose `op`, `mode` and `rsv0` are in order is read by its `op` (R61 to R63). -/
theorem decode_eq_decodeByOp {w : RequestWord} (hop : (opOf w).toNat < 6)
    (hmode : modeOf w = 0 ∨ opOf w = 2 ∧ modeOf w ≠ 3) (hrsv0 : rsv0Of w = 0) : decode w = decodeByOp w := by
  have h3 : ¬ (opOf w = 2 ∧ modeOf w = 3) := by
    rintro ⟨-, h⟩
    rcases hmode with hm | ⟨-, hm⟩
    · rw [hm] at h
      exact absurd h (by decide)
    · exact hm h
  have h0 : ¬ (opOf w ≠ 2 ∧ modeOf w ≠ 0) := fun ⟨h2, hm⟩ => hmode.elim hm fun h => h2 h.1
  rw [decode, if_neg (by omega), if_neg h3, if_neg h0, if_neg (not_not_intro hrsv0)]

theorem decode_encodeXY {op : BitVec 3} {mode : BitVec 2} (x y : Coord) (hop : op.toNat < 6)
    (hmode : mode = 0 ∨ op = 2 ∧ mode ≠ 3) :
    decode (encodeXY op mode x y) = decodeByOp (encodeXY op mode x y) :=
  decode_eq_decodeByOp (by rwa [opOf_encodeXY]) (by rwa [opOf_encodeXY, modeOf_encodeXY]) (rsv0Of_encodeXY op mode x y)

theorem decode_encodeBI {op : BitVec 3} (idx : Index) (data : Byte) (hop : op.toNat < 6) :
    decode (encodeBI op idx data) = decodeByOp (encodeBI op idx data) :=
  decode_eq_decodeByOp (by rwa [opOf_encodeBI]) (.inl (modeOf_encodeBI op idx data)) (rsv0Of_encodeBI op idx data)

theorem decode_encode (i : Instr) : decode (encode i) = .instr i := by
  cases i with
  | nop => decide
  | map x y =>
    simp [encode, decode_encodeXY, decodeByOp, opOf_encodeXY, xOf_encodeXY, yOf_encodeXY]
  | plotAdd x y =>
    simp [encode, decode_encodeXY, decodeByOp, decodePlot, opOf_encodeXY, modeOf_encodeXY, xOf_encodeXY, yOf_encodeXY]
  | plotSub x y =>
    simp [encode, decode_encodeXY, decodeByOp, decodePlot, opOf_encodeXY, modeOf_encodeXY, xOf_encodeXY, yOf_encodeXY]
  | plotInv x y =>
    simp [encode, decode_encodeXY, decodeByOp, decodePlot, opOf_encodeXY, modeOf_encodeXY, xOf_encodeXY, yOf_encodeXY]
  | rdb idx =>
    simp [encode, decode_encodeBI, decodeByOp, decodeRdb, opOf_encodeBI, rsv1Of_encodeBI, dataOf_encodeBI,
      idxOf_encodeBI]
  | wrb idx data =>
    simp [encode, decode_encodeBI, decodeByOp, decodeWrb, opOf_encodeBI, rsv1Of_encodeBI, dataOf_encodeBI,
      idxOf_encodeBI]
  | clr => decide

/-- Settles O1: the fields of each format are read back from its word, and an operand's own width keeps it in range. -/
theorem decodeOfEncode : Obligations.DecodeOfEncode :=
  fun i => ⟨decode_encode i, Machine.instr_wellFormed i⟩

theorem encodeXY_eq {w : RequestWord} {op : BitVec 3} {mode : BitVec 2} (hop : opOf w = op) (hmode : modeOf w = mode)
    (hrsv0 : rsv0Of w = 0) : encodeXY op mode (xOf w) (yOf w) = w := by
  rw [← hop, ← hmode]
  exact encodeXY_fields hrsv0

theorem encodeBI_eq {w : RequestWord} {op : BitVec 3} {data : Byte} (hop : opOf w = op) (hmode : modeOf w = 0)
    (hrsv0 : rsv0Of w = 0) (hrsv1 : rsv1Of w = 0) (hdata : dataOf w = data) : encodeBI op (idxOf w) data = w := by
  rw [← hop, ← hdata]
  exact encodeBI_fields hmode hrsv0 hrsv1

theorem encodeZ_eq {w : RequestWord} {op : BitVec 3} (hop : opOf w = op) (hmode : modeOf w = 0)
    (hrsv0 : rsv0Of w = 0) (hoperand : operandOf w = 0) : encodeZ op = w := by
  rw [← hop]
  exact encodeZ_fields hmode hrsv0 hoperand

theorem encode_of_decode {w : RequestWord} {i : Instr} (h : decode w = .instr i) : encode i = w := by
  obtain ⟨h0, ⟨ho, hm, hz, rfl⟩ | ⟨ho, hm, rfl⟩ | ⟨ho, hm, rfl⟩ | ⟨ho, hm, rfl⟩ | ⟨ho, hm, rfl⟩ |
    ⟨ho, hm, h1, hd, rfl⟩ | ⟨ho, hm, h1, rfl⟩ | ⟨ho, hm, hz, rfl⟩⟩ := decode_eq_instr h
  · exact encodeZ_eq ho hm h0 hz
  · exact encodeXY_eq ho hm h0
  · exact encodeXY_eq ho hm h0
  · exact encodeXY_eq ho hm h0
  · exact encodeXY_eq ho hm h0
  · exact encodeBI_eq ho hm h0 h1 hd
  · exact encodeBI_eq ho hm h0 h1 rfl
  · exact encodeZ_eq ho hm h0 hz

/-- Settles O2: a word that decodes to an operation has its reserved fields 0, so its fields make it up. -/
theorem encodeOfDecode : Obligations.EncodeOfDecode :=
  fun _ _ => encode_of_decode

end Sys2Proof

end

/-! ## The decoder beside the opcode table (R69) -/

section

namespace Sys2Proof

theorem tableRow (i : Instr) : Laws.TableRow.Statement i := by
  cases i with
  | nop => exact Laws.TableRow.nop
  | map x y => exact Laws.TableRow.map x y
  | plotAdd x y => exact Laws.TableRow.plotAdd x y
  | plotSub x y => exact Laws.TableRow.plotSub x y
  | plotInv x y => exact Laws.TableRow.plotInv x y
  | rdb idx => exact Laws.TableRow.rdb idx
  | wrb idx data => exact Laws.TableRow.wrb idx data
  | clr => exact Laws.TableRow.clr

/-- No two rows of the table have one name. -/
theorem row_eq_of_mnemonic_eq : ∀ r ∈ opcodeTable, ∀ r' ∈ opcodeTable, r.mnemonic = r'.mnemonic → r = r' := by
  decide

/-- Every row fixes `op`, `mode` and `rsv0`, the last at 0. -/
theorem row_keeps_op_mode_rsv0 : ∀ r ∈ opcodeTable,
    opOf r.mask = BitVec.allOnes 3 ∧ modeOf r.mask = BitVec.allOnes 2 ∧ rsv0Of r.mask = BitVec.allOnes 3 ∧
      rsv0Of r.matchWord = 0 := by
  decide

/-- Where a row's mask keeps a whole slice, a word the row accepts has the slice of the row's match. -/
theorem Row.slice_of_accepts {r : Row} {w : RequestWord} (h : r.accepts w = true) {start len : Nat}
    (hmask : r.mask.extractLsb' start len = BitVec.allOnes len) :
    w.extractLsb' start len = r.matchWord.extractLsb' start len := by
  have heq : w &&& r.mask = r.matchWord := beq_iff_eq.1 h
  rw [← heq, BitVec.extractLsb'_and, hmask, BitVec.and_allOnes]

/-- A row accepts only the words of its own operation. -/
theorem exists_encode_of_accepts {r : Row} (hr : r ∈ opcodeTable) {w : RequestWord} (h : r.accepts w = true) :
    ∃ i, encode i = w ∧ i.mnemonic = r.mnemonic := by
  obtain ⟨hmop, hmmode, hmrsv0, hzero⟩ := row_keeps_op_mode_rsv0 r hr
  have hop : opOf w = opOf r.matchWord := Row.slice_of_accepts h hmop
  have hmode : modeOf w = modeOf r.matchWord := Row.slice_of_accepts h hmmode
  have hrsv0 : rsv0Of w = 0 := (Row.slice_of_accepts h hmrsv0).trans hzero
  simp only [opcodeTable, List.mem_cons, List.not_mem_nil, or_false] at hr
  obtain rfl | rfl | rfl | rfl | rfl | rfl | rfl | rfl := hr
  · exact ⟨.nop, encodeZ_eq hop hmode hrsv0 (Row.slice_of_accepts h (by decide)), rfl⟩
  · exact ⟨.map (xOf w) (yOf w), encodeXY_eq hop hmode hrsv0, rfl⟩
  · exact ⟨.plotAdd (xOf w) (yOf w), encodeXY_eq hop hmode hrsv0, rfl⟩
  · exact ⟨.plotSub (xOf w) (yOf w), encodeXY_eq hop hmode hrsv0, rfl⟩
  · exact ⟨.plotInv (xOf w) (yOf w), encodeXY_eq hop hmode hrsv0, rfl⟩
  · exact ⟨.rdb (idxOf w), encodeBI_eq hop hmode hrsv0 (Row.slice_of_accepts h (by decide))
      (Row.slice_of_accepts h (by decide)), rfl⟩
  · exact ⟨.wrb (idxOf w) (dataOf w), encodeBI_eq hop hmode hrsv0 (Row.slice_of_accepts h (by decide)) rfl, rfl⟩
  · exact ⟨.clr, encodeZ_eq hop hmode hrsv0 (Row.slice_of_accepts h (by decide)), rfl⟩

/-- A row of the table accepts exactly the words that decode to its operation (R69). -/
theorem Row.accepts_iff {r : Row} (hr : r ∈ opcodeTable) (w : RequestWord) :
    r.accepts w = true ↔ ∃ i, decode w = .instr i ∧ i.mnemonic = r.mnemonic := by
  constructor
  · intro h
    obtain ⟨i, rfl, hname⟩ := exists_encode_of_accepts hr h
    exact ⟨i, decode_encode i, hname⟩
  · rintro ⟨i, hd, hname⟩
    obtain ⟨r', hr', hname', h⟩ := tableRow i
    rw [row_eq_of_mnemonic_eq r hr r' hr' (hname.symm.trans hname'.symm), ← encode_of_decode hd]
    exact h

/-- The row with the name of an operation, and no other, accepts the operation's word. -/
theorem filter_accepts_of_decode {w : RequestWord} {i : Instr} (hd : decode w = .instr i) :
    opcodeTable.filter (·.accepts w) = opcodeTable.filter fun r => i.mnemonic == r.mnemonic := by
  refine List.filter_congr fun r hr => ?_
  rw [Bool.eq_iff_iff, Row.accepts_iff hr, hd, beq_iff_eq]
  simp

theorem exists_filter_mnemonic_eq (i : Instr) :
    ∃ r, (opcodeTable.filter fun r => i.mnemonic == r.mnemonic) = [r] ∧ i.mnemonic = r.mnemonic := by
  cases i <;> exact ⟨_, rfl, rfl⟩

theorem filter_accepts_of_illegal {w : RequestWord} {reason : Illegal} (hd : decode w = .illegal reason) :
    opcodeTable.filter (·.accepts w) = [] := by
  refine List.filter_eq_nil_iff.2 fun r hr => ?_
  rw [Row.accepts_iff hr, hd]
  simp

/-- Settles O3: each row accepts exactly the words that decode to its operation, and each operation has one row. -/
theorem decodeAgreesWithTable : Obligations.DecodeAgreesWithTable := by
  refine ⟨by decide, fun w => ?_⟩
  cases hd : decode w with
  | instr i =>
    obtain ⟨r, hrow, hname⟩ := exists_filter_mnemonic_eq i
    have hfilter : (opcodeTable.filter fun r => w &&& r.mask == r.matchWord) = [r] :=
      (filter_accepts_of_decode hd).trans hrow
    rw [hfilter]
    exact ⟨i, rfl, hname⟩
  | illegal reason =>
    have hfilter : (opcodeTable.filter fun r => w &&& r.mask == r.matchWord) = [] := filter_accepts_of_illegal hd
    rw [hfilter]
    exact ⟨reason, rfl⟩

end Sys2Proof

end

/-! ## Illegal words, and words written out (R71) -/

section

namespace Sys2Proof

theorem decodeZ_illegal_iff (w : RequestWord) (i : Instr) :
    (∃ reason, decodeZ w i = .illegal reason) ↔ operandOf w ≠ 0 := by
  unfold decodeZ; split <;> simp_all

theorem decodeRdb_illegal_iff (w : RequestWord) :
    (∃ reason, decodeRdb w = .illegal reason) ↔ rsv1Of w ≠ 0 ∨ dataOf w ≠ 0 := by
  unfold decodeRdb; split <;> [split; skip] <;> simp_all

theorem decodeWrb_illegal_iff (w : RequestWord) :
    (∃ reason, decodeWrb w = .illegal reason) ↔ rsv1Of w ≠ 0 := by
  unfold decodeWrb; split <;> simp_all

theorem decodePlot_illegal_iff (w : RequestWord) :
    (∃ reason, decodePlot w = .illegal reason) ↔ modeOf w = 3 := by
  obtain h | h | h | h := mode_values (modeOf w) <;> simp [decodePlot, h]

/-- The bits `req[34:0]` of format Z are `rsv0` and the operand (R61, R66). -/
theorem rsv0_operand_eq_zero_iff (w : RequestWord) :
    w.extractLsb' 0 35 = 0 ↔ rsv0Of w = 0 ∧ operandOf w = 0 := by
  simp only [rsv0Of, operandOf, ← BitVec.toNat_inj, BitVec.extractLsb'_toNat, Nat.shiftRight_eq_div_pow,
    BitVec.ofNat_eq_ofNat, BitVec.toNat_ofNat]
  omega

theorem six_le_op_iff (o : BitVec 3) : 6 ≤ o.toNat ↔ o = 6 ∨ o = 7 := by
  revert o; decide

/-- Which words are ILLEGAL, by the fields of R61 to R66: items (a) to (g) of R71. -/
theorem decode_illegal_iff (w : RequestWord) :
    (∃ reason, decode w = .illegal reason) ↔
      (opOf w = 6 ∨ opOf w = 7) ∨ (opOf w = 2 ∧ modeOf w = 3) ∨ (opOf w ≠ 2 ∧ modeOf w ≠ 0) ∨ rsv0Of w ≠ 0 ∨
      ((opOf w = 3 ∨ opOf w = 4) ∧ rsv1Of w ≠ 0) ∨ (opOf w = 3 ∧ dataOf w ≠ 0) ∨
      ((opOf w = 0 ∨ opOf w = 5) ∧ w.extractLsb' 0 35 ≠ 0) := by
  rw [← six_le_op_iff]
  by_cases ha : 6 ≤ (opOf w).toNat
  · exact iff_of_true ⟨_, if_pos ha⟩ (.inl ha)
  by_cases hb : opOf w = 2 ∧ modeOf w = 3
  · exact iff_of_true ⟨_, by rw [decode, if_neg ha, if_pos hb]⟩ (.inr (.inl hb))
  by_cases hc : opOf w ≠ 2 ∧ modeOf w ≠ 0
  · exact iff_of_true ⟨_, by rw [decode, if_neg ha, if_neg hb, if_pos hc]⟩ (.inr (.inr (.inl hc)))
  by_cases hd : rsv0Of w ≠ 0
  · exact iff_of_true ⟨_, by rw [decode, if_neg ha, if_neg hb, if_neg hc, if_pos hd]⟩
      (.inr (.inr (.inr (.inl hd))))
  have hlow : w.extractLsb' 0 35 = 0 ↔ operandOf w = 0 := by
    rw [rsv0_operand_eq_zero_iff, and_iff_right (not_not.1 hd)]
  rw [decode, if_neg ha, if_neg hb, if_neg hc, if_neg hd, ne_eq (w.extractLsb' 0 35), hlow]
  obtain ho | ho | ho | ho | ho | ho | ho | ho := op_values (opOf w) <;>
    simp_all [decodeByOp, decodeZ_illegal_iff, decodePlot_illegal_iff, decodeRdb_illegal_iff, decodeWrb_illegal_iff]

end Sys2Proof

namespace Sys2Proof.Machine

theorem serve_of_illegal {w : RequestWord} {reason : Illegal} (h : decode w = .illegal reason) (s : State) :
    serve w s = .next { s with owed := s.owed ++ [plainResponse .ILLEGAL 0] } := by
  rw [serve, h]
  rfl

/-- Settles O4: the decoder's guards and the operand check of each format are the items of R71, and a word it rejects is
only reported. -/
theorem illegalWordsAreListed : Obligations.IllegalWordsAreListed :=
  fun w => ⟨decode_illegal_iff w, fun _ => serve_of_illegal⟩

/-- Settles O5, word by word. -/
theorem writtenWordsDecode : Obligations.WrittenWordsDecode := by
  refine ⟨?_, ?_, ?_, ?_, ?_, ?_, ?_, ?_, ?_, ?_⟩ <;> decide

end Sys2Proof.Machine

end

/-! ## The response word (R67, R68) -/

section

namespace Sys2Proof.Machine

@[simp] theorem statusOfCode_code (st : Status) : statusOfCode st.code = st := by cases st <;> rfl

theorem pack_rdata (r : Response) : r.pack.extractLsb' 0 8 = r.rdata :=
  BitVec.extractLsb'_append_eq_right

theorem pack_mMask (r : Response) : r.pack.extractLsb' 8 8 = r.mMask :=
  (BitVec.extractLsb'_append_eq_of_le (by decide)).trans BitVec.extractLsb'_append_eq_right

theorem pack_mIdx (r : Response) : r.pack.extractLsb' 16 10 = r.mIdx :=
  calc r.pack.extractLsb' 16 10
    _ = (r.status.code ++ BitVec.ofBool r.mValid ++ r.mIdx ++ r.mMask).extractLsb' 8 10 :=
      BitVec.extractLsb'_append_eq_of_le (by decide)
    _ = (r.status.code ++ BitVec.ofBool r.mValid ++ r.mIdx).extractLsb' 0 10 :=
      BitVec.extractLsb'_append_eq_of_le (by decide)
    _ = r.mIdx := BitVec.extractLsb'_append_eq_right

theorem pack_mValid (r : Response) : r.pack.getLsbD 26 = r.mValid := by
  simp only [Response.pack, BitVec.getLsbD_append]
  simp

theorem pack_status (r : Response) : r.pack.extractLsb' 27 2 = r.status.code :=
  calc r.pack.extractLsb' 27 2
    _ = (r.status.code ++ BitVec.ofBool r.mValid ++ r.mIdx ++ r.mMask).extractLsb' 19 2 :=
      BitVec.extractLsb'_append_eq_of_le (by decide)
    _ = (r.status.code ++ BitVec.ofBool r.mValid ++ r.mIdx).extractLsb' 11 2 :=
      BitVec.extractLsb'_append_eq_of_le (by decide)
    _ = (r.status.code ++ BitVec.ofBool r.mValid).extractLsb' 1 2 :=
      BitVec.extractLsb'_append_eq_of_le (by decide)
    _ = r.status.code := BitVec.extractLsb'_append_eq_left

theorem responseOfWord_pack (r : Response) : responseOfWord r.pack = r := by
  rw [responseOfWord, pack_status, pack_mValid, pack_mIdx, pack_mMask, pack_rdata, statusOfCode_code]

/-- A response with the mapper's outputs `p`, on the panel or off it (R90, R102). -/
def mapperResponse (st : Status) (p : MapOut) : Response :=
  { status := st, mValid := p.valid, mIdx := p.idx, mMask := p.mask, rdata := 0 }

theorem plainResponse_eq_mapperResponse {layout : Layout} {x y : Coord} (h : onPanel layout x y = false) (st : Status) :
    plainResponse st 0 = mapperResponse st (pam layout x y) := by
  rw [pam_of_offPanel h]; rfl

theorem pointResponse_eq_mapperResponse {layout : Layout} {x y : Coord} (h : onPanel layout x y = true) (st : Status) :
    pointResponse st (pam layout x y) = mapperResponse st (pam layout x y) := by
  simp [pointResponse, mapperResponse, h]

/-- MAP and every PLOT answer with the mapper's outputs, and never as ILLEGAL (R67, R141). -/
theorem specPlot_response (cfg : Config) (mode : WriteMode) (x y : Coord) (σ : SpecState) :
    ∃ st, st ≠ .ILLEGAL ∧ (specPlot cfg mode x y σ).2 = mapperResponse st (pam σ.1 x y) := by
  cases hon : onPanel σ.1 x y with
  | false => exact ⟨.CLIPPED, by decide, by rw [specPlot_off cfg mode hon, plainResponse_eq_mapperResponse hon]⟩
  | true =>
    cases hok : indexOK cfg (pam σ.1 x y).idx with
    | false => exact ⟨.GUARDED, by decide, by
        rw [specPlot_guarded mode hon hok, pointResponse_eq_mapperResponse hon]⟩
    | true => exact ⟨.DONE, by decide, by rw [specPlot_done mode hon hok, pointResponse_eq_mapperResponse hon]⟩

theorem specOp_map_response (cfg : Config) (x y : Coord) (σ : SpecState) :
    ∃ st, st ≠ .ILLEGAL ∧ (specOp cfg (.map x y) σ).2 = mapperResponse st (pam σ.1 x y) := by
  cases hon : onPanel σ.1 x y with
  | false => exact ⟨.CLIPPED, by decide, by
      rw [← plainResponse_eq_mapperResponse hon]; simp [specOp, hon]⟩
  | true => exact ⟨.DONE, by decide, by
      rw [← pointResponse_eq_mapperResponse hon]; simp [specOp, hon]⟩

/-- An operation that gives the mapper a point answers with the mapper's outputs, and never as ILLEGAL (R67, R141). -/
theorem specOp_response_of_mapper {i : Instr} {x y : Coord} (hi : i = .map x y ∨ PlotsAt x y i) (cfg : Config)
    (σ : SpecState) : ∃ st, st ≠ .ILLEGAL ∧ (specOp cfg i σ).2 = mapperResponse st (pam σ.1 x y) := by
  obtain rfl | rfl | rfl | rfl := hi
  · exact specOp_map_response cfg x y σ
  · exact specPlot_response cfg .ADD x y σ
  · exact specPlot_response cfg .SUBTRACT x y σ
  · exact specPlot_response cfg .INVERT x y σ

theorem specRequest_of_instr {w : RequestWord} {i : Instr} (hd : decode w = .instr i) (cfg : Config) (σ : SpecState) :
    specRequest cfg w σ = specOp cfg i σ := by
  rw [specRequest, hd]

theorem specRequest_of_illegal {w : RequestWord} {reason : Illegal} (hd : decode w = .illegal reason) (cfg : Config)
    (σ : SpecState) : specRequest cfg w σ = (σ, plainResponse .ILLEGAL 0) := by
  rw [specRequest, hd]

/-- Every response there is: only MAP and PLOT fill the mapper's fields, and only RDB fills `rdata` (R67). -/
theorem specRequest_response_cases (cfg : Config) (w : RequestWord) (σ : SpecState) :
    (specRequest cfg w σ).2 = plainResponse .ILLEGAL 0 ∨
    ((opOf w = 1 ∨ opOf w = 2) ∧ ∃ st p, st ≠ .ILLEGAL ∧ (specRequest cfg w σ).2 = mapperResponse st p) ∨
    (opOf w = 3 ∧ ∃ rd, (specRequest cfg w σ).2 = plainResponse .DONE rd) ∨
    (specRequest cfg w σ).2 = plainResponse .DONE 0 := by
  cases hd : decode w with
  | illegal reason =>
    rw [specRequest_of_illegal hd]
    exact .inl rfl
  | instr i =>
    have hmapper : ∀ {x y}, (i = .map x y ∨ PlotsAt x y i) →
        ∃ st p, st ≠ .ILLEGAL ∧ (specOp cfg i σ).2 = mapperResponse st p := by
      intro x y hi
      obtain ⟨st, hst, hr⟩ := specOp_response_of_mapper hi cfg σ
      exact ⟨st, _, hst, hr⟩
    rw [specRequest_of_instr hd]
    obtain ⟨-, ⟨-, -, -, rfl⟩ | ⟨ho, -, hi⟩ | ⟨ho, -, hi⟩ | ⟨ho, -, hi⟩ | ⟨ho, -, hi⟩ |
      ⟨ho, -, -, -, rfl⟩ | ⟨-, -, -, rfl⟩ | ⟨-, -, -, rfl⟩⟩ := decode_eq_instr hd
    · exact .inr (.inr (.inr rfl))
    · exact .inr (.inl ⟨.inl ho, hmapper (.inl hi)⟩)
    · exact .inr (.inl ⟨.inr ho, hmapper (.inr (.inl hi))⟩)
    · exact .inr (.inl ⟨.inr ho, hmapper (.inr (.inr (.inl hi)))⟩)
    · exact .inr (.inl ⟨.inr ho, hmapper (.inr (.inr (.inr hi)))⟩)
    · exact .inr (.inr (.inl ⟨ho, _, rfl⟩))
    · exact .inr (.inr (.inr rfl))
    · exact .inr (.inr (.inr rfl))

/-- A request that gives the mapper a point answers with the mapper's outputs (R90, R102). -/
theorem specRequest_mapper_fields {w : RequestWord} {x y : Coord}
    (h : decode w = .instr (.map x y) ∨ ∃ i, PlotsAt x y i ∧ decode w = .instr i) (cfg : Config)
    (σ : SpecState) :
    (specRequest cfg w σ).2.mValid = (pam σ.1 x y).valid ∧ (specRequest cfg w σ).2.mIdx = (pam σ.1 x y).idx ∧
      (specRequest cfg w σ).2.mMask = (pam σ.1 x y).mask := by
  obtain ⟨i, hi, hd⟩ : ∃ i, (i = .map x y ∨ PlotsAt x y i) ∧ decode w = .instr i := by
    obtain hd | ⟨i, hi, hd⟩ := h
    · exact ⟨_, .inl rfl, hd⟩
    · exact ⟨i, .inr hi, hd⟩
  obtain ⟨st, -, hr⟩ := specOp_response_of_mapper hi cfg σ
  rw [specRequest_of_instr hd, hr]
  exact ⟨rfl, rfl, rfl⟩

/-- Settles O6: the packed word is cut where its fields meet, and `specRequest_response_cases` says which fields each
request fills. -/
theorem responseWordFields : Obligations.ResponseWordFields := by
  refine ⟨⟨rfl, rfl, rfl, rfl⟩, fun r => ⟨pack_status r, pack_mValid r, pack_mIdx r, pack_mMask r, pack_rdata r,
    responseOfWord_pack r⟩, fun w s => ?_⟩
  obtain ⟨fb, hserve, -⟩ := serve_spec w s
  refine ⟨_, _, hserve, rfl, fun x y h => specRequest_mapper_fields h s.cfg s.spec, ?_, ?_, ?_, ?_⟩
  · intro hmap hplot
    obtain h | ⟨h1 | h2, -⟩ | ⟨-, rd, h⟩ | h := specRequest_response_cases s.cfg w s.spec
    · rw [h]; exact ⟨rfl, rfl, rfl⟩
    · exact absurd h1 hmap
    · exact absurd h2 hplot
    · rw [h]; exact ⟨rfl, rfl, rfl⟩
    · rw [h]; exact ⟨rfl, rfl, rfl⟩
  · intro idx hd
    rw [specRequest_of_instr hd]
    rfl
  · intro hrdb
    obtain h | ⟨-, st, p, -, h⟩ | ⟨h3, -⟩ | h := specRequest_response_cases s.cfg w s.spec
    · rw [h]; rfl
    · rw [h]; rfl
    · exact absurd h3 hrdb
    · rw [h]; rfl
  · intro hill
    obtain h | ⟨-, st, p, hst, h⟩ | ⟨-, rd, h⟩ | h := specRequest_response_cases s.cfg w s.spec
    · rw [h]; exact ⟨rfl, rfl, rfl, rfl⟩
    · rw [h] at hill
      exact absurd hill hst
    · rw [h] at hill
      cases hill
    · rw [h] at hill
      cases hill

end Sys2Proof.Machine

end

/-! ## The port at one edge (R13, R60, log 12) -/

section

namespace Sys2Proof.Machine

/-- Outside reset a request is accepted where it is valid and the block is ready (R60). -/
theorem accepts_of_not_rst {e : Edge} (hrst : e.rst = false) : e.accepts = (e.reqValid && e.ready) := by
  rw [Edge.accepts, Edge.reqReady, hrst, Bool.not_false, Bool.true_and]

theorem requestBroken_of_kept {s : State} {e : Edge} (hvalid : e.reqValid = true)
    (hkept : s.presented = none ∨ s.presented = some e.req) : requestBroken e s = false := by
  rcases hkept with h | h <;> simp [requestBroken, h, hvalid]

/-- An edge that accepts a word, the requester's duty kept, performs it in the state the port leaves. -/
theorem step_of_accepts {s : State} {e : Edge} {rest : List Edge} (hedges : s.edges = e :: rest) (hrst : e.rst = false)
    (hvalid : e.reqValid = true) (hready : e.ready = true) (hkept : s.presented = none ∨ s.presented = some e.req) :
    step s = serve e.req (acceptState e { s with edges := rest }) := by
  have hbroken : requestBroken e { s with edges := rest } = false := requestBroken_of_kept hvalid hkept
  simp [step, hedges, clockEdge, hrst, hbroken, accepts_of_not_rst hrst, hvalid, hready]

theorem serve_of_instr {w : RequestWord} {i : Instr} (hd : decode w = .instr i) (s : State) :
    serve w s = exec i s := by
  rw [serve, hd]

/-- The response side of an edge: the oldest response owed leaves for `rsp`, or nothing does (R60). -/
theorem answerOldest_response (e : Edge) (s : State) :
    (∃ r, e.answer = true ∧ s.owed = r :: (answerOldest e s).owed ∧ (answerOldest e s).rsp = some r.pack) ∨
    ((e.answer = false ∨ s.owed = []) ∧ (answerOldest e s).owed = s.owed ∧ (answerOldest e s).rsp = none) := by
  obtain ⟨r, rest, ha, ho, h⟩ | ⟨hn, h⟩ := answerOldest_cases s e <;> rw [h]
  · exact .inl ⟨r, ha, ho, rfl⟩
  · exact .inr ⟨hn, rfl, rfl⟩

/-- Settles O7: the edge accepts the word, which is then served as the operation it decodes to. -/
theorem stepRunsDecoded : Obligations.StepRunsDecoded := by
  intro s e rest i hedges hrst hvalid hready hkept hd
  refine ⟨?_, acceptState_fb _ e, acceptState_layout_q _ e, acceptState_cfg _ e, acceptState_edges _ e, rfl, rfl,
    acceptState_draws _ e, answerOldest_response e { s with edges := rest }⟩
  rw [step_of_accepts hedges hrst hvalid hready hkept, serve_of_instr hd]

/-- Settles O8: the edge that presents the word is accepted and answers nothing. -/
theorem fetchWordRunsNext : Obligations.FetchWordRunsNext := by
  intro s w i hd
  have hword : BitVec.ofNat 40 (w.toNat % 2 ^ 40) = w := by
    rw [Nat.mod_eq_of_lt w.isLt, BitVec.ofNat_toNat, BitVec.setWidth_eq]
  have hedges : (s.withFetchWord 40 w.toNat).edges = requestEdge w :: s.edges := by
    rw [State.withFetchWord, hword]
  rw [step_of_accepts hedges rfl rfl rfl (.inl rfl)]
  exact serve_of_instr hd _

theorem serve_owed {w : RequestWord} {s t : State} (ht : serve w s = .next t) : ∃ r, t.owed = s.owed ++ [r] := by
  obtain ⟨fb, he, -⟩ := serve_spec w s
  obtain rfl := Host.Outcome.next.inj (he.symm.trans ht)
  exact ⟨_, rfl⟩

/-- Settles O9: the oldest response leaves first, then an accepted word adds its own (log 17). -/
theorem oneResponsePerRequest : Obligations.OneResponsePerRequest := by
  intro s t e rest hedges hrst ht
  obtain ⟨hnil, -⟩ | ⟨e', rest', hs, hcase⟩ := step_next_cases ht
  · exact absurd (hedges.symm.trans hnil) (List.cons_ne_nil e rest)
  obtain ⟨rfl, rfl⟩ := List.cons.inj (hedges.symm.trans hs)
  have hanswer := answerOldest_response e { s with edges := rest }
  rw [← accepts_of_not_rst hrst]
  obtain ⟨hr, -⟩ | ⟨-, hacc, he⟩ | ⟨-, hacc, rfl⟩ := hcase
  · exact absurd (hrst.symm.trans hr) Bool.false_ne_true
  · obtain ⟨r, howed⟩ := serve_owed he
    rw [acceptState_owed] at howed
    rw [(serve_keeps_port he).1, acceptState_rsp, hacc]
    exact ⟨_, [r], howed, rfl, hanswer⟩
  · rw [hacc]
    exact ⟨_, [], (List.append_nil _).symm, rfl, hanswer⟩

end Sys2Proof.Machine

end

/-! ## The text form reads back (R73) -/

section

namespace Sys2Proof.Machine

/-- A character that no step of the assembler cuts at: no blank, comma or semicolon (R73). -/
def isPlain (c : Char) : Bool := !isBlank c && c != ',' && c != ';'

theorem isPlain_iff (c : Char) : isPlain c = true ↔ isBlank c = false ∧ c ≠ ',' ∧ c ≠ ';' := by
  simp [isPlain, and_assoc]

/-- A name or an operand: plain characters, at least one. -/
def isToken (l : List Char) : Bool := !l.isEmpty && l.all isPlain

theorem isToken_iff (l : List Char) : isToken l = true ↔ l ≠ [] ∧ ∀ c ∈ l, isPlain c = true := by
  simp [isToken]

theorem isPlain_of_decDigit {c : Char} (h : ∃ d, decDigit c = some d) : isPlain c = true := by
  have hrange := decDigit_range h
  have hne : ∀ d : Char, ¬ (48 ≤ d.toNat ∧ d.toNat ≤ 57) → c ≠ d := fun d hd he => hd (he ▸ hrange)
  simp [isPlain, isBlank, hne ' ' (by decide), hne '\t' (by decide), hne '\r' (by decide), hne ',' (by decide),
    hne ';' (by decide)]

theorem isToken_natText (n : Nat) : isToken (natText n) = true :=
  (isToken_iff _).2 ⟨decDigits_ne_nil 4 n, fun c hc => isPlain_of_decDigit (natText_digits n c hc)⟩

theorem isToken_intText (n : Int) : isToken (intText n) = true := by
  obtain ⟨-, hplain⟩ := (isToken_iff _).1 (isToken_natText n.natAbs)
  unfold intText
  split
  · exact (isToken_iff _).2 ⟨List.cons_ne_nil _ _, List.forall_mem_cons.2 ⟨by decide, hplain⟩⟩
  · exact isToken_natText n.natAbs

theorem isPlain_of_mem_token {l : List Char} (h : isToken l = true) {c : Char} (hc : c ∈ l) : isPlain c = true :=
  ((isToken_iff l).1 h).2 c hc

theorem not_isBlank_of_mem_token {l : List Char} (h : isToken l = true) {c : Char} (hc : c ∈ l) : isBlank c = false :=
  ((isPlain_iff c).1 (isPlain_of_mem_token h hc)).1

theorem ne_comma_of_mem_token {l : List Char} (h : isToken l = true) {c : Char} (hc : c ∈ l) : c ≠ ',' :=
  ((isPlain_iff c).1 (isPlain_of_mem_token h hc)).2.1

theorem ne_semicolon_of_mem_token {l : List Char} (h : isToken l = true) {c : Char} (hc : c ∈ l) : c ≠ ';' :=
  ((isPlain_iff c).1 (isPlain_of_mem_token h hc)).2.2

theorem trimBlanks_token {l : List Char} (h : isToken l = true) : trimBlanks l = l :=
  trimBlanks_of_ends (fun _ hc => not_isBlank_of_mem_token h (List.mem_of_head? hc))
    fun _ hc => not_isBlank_of_mem_token h (List.mem_of_getLast? hc)

/-- Text from one token to another is left as it is by trimming, whatever stands between. -/
theorem trimBlanks_between {a b : List Char} (ha : isToken a = true) (hb : isToken b = true) (mid : List Char) :
    trimBlanks (a ++ (mid ++ b)) = a ++ (mid ++ b) := by
  have hane := ((isToken_iff a).1 ha).1
  have hbne := ((isToken_iff b).1 hb).1
  refine trimBlanks_of_ends (fun c hc => ?_) fun c hc => ?_
  · rw [List.head?_append_of_ne_nil a hane] at hc
    exact not_isBlank_of_mem_token ha (List.mem_of_head? hc)
  · rw [← List.append_assoc, List.getLast?_append_of_ne_nil _ hbne] at hc
    exact not_isBlank_of_mem_token hb (List.mem_of_getLast? hc)

/-- Text without a comment or a blank at its ends is a statement. -/
theorem assembleLine_of_trimmed {line : List Char} (hcomment : ∀ c ∈ line, c ≠ ';')
    (htrim : trimBlanks line = line) (hne : line ≠ []) : assembleLine line = assembleStatement line := by
  have hstmt : trimBlanks (withoutComment line) = line := by
    rw [withoutComment, List.takeWhile_eq_self_iff.2 fun c hc => bne_iff_ne.2 (hcomment c hc), htrim]
  simp [assembleLine, hstmt, hne]

/-- A name, a blank and the text of its operands are read as the statement of that name with those operands. -/
theorem assembleStatement_of_operands {name args : List Char} {os : List Operand} {src : Source}
    (hname : isToken name = true) (htrim : trimBlanks args = args) (hne : args ≠ [])
    (hread : readOperands (splitCommas args) = some os) (hsource : sourceOf name os = some src) :
    assembleStatement (name ++ ' ' :: args) = assembleSource src := by
  have hblank : ∀ c ∈ name, (!isBlank c) = true := fun c hc => by
    rw [not_isBlank_of_mem_token hname hc, Bool.not_false]
  have htake : (name ++ ' ' :: args).takeWhile (fun c => !isBlank c) = name := by
    rw [List.takeWhile_append_of_pos hblank, List.takeWhile_cons_of_neg (by decide), List.append_nil]
  have hdrop : trimBlanks ((name ++ ' ' :: args).dropWhile fun c => !isBlank c) = args := by
    rw [List.dropWhile_append_of_pos hblank, List.dropWhile_cons_of_neg (by decide), trimBlanks_cons rfl, htrim]
  simp [assembleStatement, htake, hdrop, hne, hread, hsource]

/-- A line of a name and operands, of which the last is the token `last` (R73). -/
theorem assembleLine_of_operands {name front last : List Char} {os : List Operand} {src : Source}
    (hname : isToken name = true) (hlast : isToken last = true) (hfront : ∀ c ∈ front, c ≠ ';')
    (htrim : trimBlanks (front ++ last) = front ++ last)
    (hread : readOperands (splitCommas (front ++ last)) = some os) (hsource : sourceOf name os = some src) :
    assembleLine (name ++ ' ' :: (front ++ last)) = assembleSource src := by
  have hcomment : ∀ c ∈ name ++ ' ' :: (front ++ last), c ≠ ';' :=
    List.forall_mem_append.2 ⟨fun _ => ne_semicolon_of_mem_token hname, List.forall_mem_cons.2 ⟨by decide,
      List.forall_mem_append.2 ⟨hfront, fun _ => ne_semicolon_of_mem_token hlast⟩⟩⟩
  have hne : front ++ last ≠ [] := List.append_ne_nil_of_right_ne_nil front ((isToken_iff last).1 hlast).1
  rw [assembleLine_of_trimmed hcomment (trimBlanks_between hname hlast (' ' :: front))
      (List.append_ne_nil_of_right_ne_nil name (List.cons_ne_nil _ _)),
    assembleStatement_of_operands hname htrim hne hread hsource]

/-- A statement of one operand (R73). -/
theorem assembleLine_one {name a : List Char} {o : Operand} {src : Source} (hname : isToken name = true)
    (ha : isToken a = true) (hread : readOperand a = some o) (hsource : sourceOf name [o] = some src) :
    assembleLine (name ++ ' ' :: a) = assembleSource src := by
  have hoperands : readOperands (splitCommas a) = some [o] := by
    rw [splitCommas_one fun _ => ne_comma_of_mem_token ha]
    simp [readOperands, trimBlanks_token ha, hread]
  exact assembleLine_of_operands (front := []) hname ha (List.forall_mem_nil _) (trimBlanks_token ha) hoperands hsource

/-- A statement of two operands (R73). -/
theorem assembleLine_two {name a b : List Char} {o o' : Operand} {src : Source} (hname : isToken name = true)
    (ha : isToken a = true) (hb : isToken b = true) (hread : readOperand a = some o)
    (hread' : readOperand b = some o') (hsource : sourceOf name [o, o'] = some src) :
    assembleLine (statementText name a b) = assembleSource src := by
  have hfront : ∀ c ∈ a ++ [',', ' '], c ≠ ';' :=
    List.forall_mem_append.2 ⟨fun _ => ne_semicolon_of_mem_token ha, by simp⟩
  have htrim : trimBlanks (a ++ [',', ' '] ++ b) = a ++ [',', ' '] ++ b := by
    rw [List.append_assoc, trimBlanks_between ha hb]
  have hoperands : readOperands (splitCommas (a ++ [',', ' '] ++ b)) = some [o, o'] := by
    rw [List.append_assoc, List.cons_append, List.singleton_append,
      splitCommas_two (fun _ => ne_comma_of_mem_token ha)
        (List.forall_mem_cons.2 ⟨by decide, fun _ => ne_comma_of_mem_token hb⟩)]
    simp [readOperands, trimBlanks_token ha, trimBlanks_cons (c := ' ') rfl, trimBlanks_token hb, hread, hread']
  have htext : statementText name a b = name ++ ' ' :: (a ++ [',', ' '] ++ b) := by
    simp only [statementText, List.append_assoc, List.cons_append, List.nil_append]
  rw [htext, assembleLine_of_operands hname hb hfront htrim hoperands hsource]

theorem readOperand_coordText (c : Coord) : readOperand (intText c.toInt) = some (.dec c.toInt) := by
  have hlow := c.le_toInt
  have hhigh := c.toInt_lt
  exact readOperand_intText ⟨by omega, by omega⟩

theorem readOperand_indexText (j : Index) : readOperand (natText j.toNat) = some (.dec j.toNat) :=
  readOperand_natText (Nat.lt_trans j.isLt (by decide))

theorem readOperand_byteText (d : Byte) : readOperand (natText d.toNat) = some (.dec d.toNat) :=
  readOperand_natText (Nat.lt_trans d.isLt (by decide))

/-- A statement of two decimal coordinates (R73). -/
theorem assembleLine_coords {name : List Char} {x y : Coord} {src : Source} (hname : isToken name = true)
    (hsource : sourceOf name [.dec x.toInt, .dec y.toInt] = some src) :
    assembleLine (statementText name (intText x.toInt) (intText y.toInt)) = assembleSource src :=
  assembleLine_two hname (isToken_intText _) (isToken_intText _) (readOperand_coordText x) (readOperand_coordText y)
    hsource

/-- The text of an operation is read as its decimal statement. -/
theorem assembleLine_textOf (i : Instr) : assembleLine (textOf i) = assembleSource i.toSource := by
  cases i with
  | nop => decide
  | map x y => exact assembleLine_coords (by decide) rfl
  | plotAdd x y => exact assembleLine_coords (by decide) rfl
  | plotSub x y => exact assembleLine_coords (by decide) rfl
  | plotInv x y => exact assembleLine_coords (by decide) rfl
  | rdb idx =>
    exact assembleLine_one (name := ['R', 'D', 'B']) (by decide) (isToken_natText _) (readOperand_indexText idx) rfl
  | wrb idx data =>
    exact assembleLine_two (by decide) (isToken_natText _) (isToken_natText _) (readOperand_indexText idx)
      (readOperand_byteText data) rfl
  | clr => decide

/-- Settles O48: the text is read as the decimal statement of the operation, which assembles to it. -/
theorem writtenTextAssembles : Obligations.WrittenTextAssembles :=
  fun i => (assembleLine_textOf i).trans (assembleSource_toSource i)

end Sys2Proof.Machine

end

/-! ## The clip test, the mapper's outputs and MAP (R82 to R88, R90) -/

section

namespace Sys2Proof.Machine

/-- Settles O22: the mapper's valid bit is the on-panel test. -/
theorem clipTest : Obligations.ClipTest := by
  refine ⟨rfl, rfl, rfl, fun layout x y => ?_⟩
  rw [pam_valid, onPanel_iff]
  cases layout <;> rfl

/-- Settles O23: the clip test comes before the mapping. -/
theorem clippedPointGivesZeros : Obligations.ClippedPointGivesZeros := by
  intro layout x y hoff
  rw [← onPanel_iff, Bool.not_eq_true] at hoff
  exact pam_of_offPanel hoff

/-- Settles O24: in FULL eight rows share a byte, each with the bit of its own number. -/
theorem fullLayoutMapping : Obligations.FullLayoutMapping := by
  intro x y hvalid
  rw [pam_valid] at hvalid
  refine ⟨pam_idx_toNat hvalid, fun k => ?_⟩
  rw [Bool.eq_iff_iff, pam_mask_getLsbD hvalid, decide_eq_true_iff]
  rfl

/-- Settles O25: in HALF four rows share a byte, and the doubled row of `y` is the upper bit of the pair of `y % 4`. -/
theorem halfLayoutMapping : Obligations.HalfLayoutMapping := by
  intro x y hvalid
  rw [pam_valid] at hvalid
  have hidx := pam_idx_toNat hvalid
  refine ⟨?_, fun k => ?_⟩
  · simp only [rowsPerByte] at hidx
    omega
  · rw [Bool.eq_iff_iff, pam_mask_getLsbD hvalid, decide_eq_true_iff]
    simp only [rowInByte, rowsPerByte]
    omega

/-- The doubled row of the lowest rows is off by `2 ^ 16` when it is computed in 16 bits (R86). -/
theorem toInt_doubled_of_le {y : Coord} (hy : y.toInt ≤ -32737) : (2 * y + 1).toInt = 2 * y.toInt + 1 + 65536 := by
  have hlow := y.le_toInt
  have h2 : (2 : Coord).toInt = 2 := by decide
  have h1 : (1 : Coord).toInt = 1 := by decide
  rw [BitVec.toInt_add, BitVec.toInt_mul, h1, h2, Int.bmod_add_bmod, Int.bmod_def]
  omega

/-- Settles O26: the clip test bounds `y` itself, so the wrap of the 16-bit doubled row cannot reach it. -/
theorem halfClipDoesNotWrap : Obligations.HalfClipDoesNotWrap := by
  intro x y
  have hvalid : (pam .HALF x y).valid = true ↔
      0 ≤ x.toInt ∧ x.toInt < 128 ∧ 0 ≤ 2 * y.toInt + 1 ∧ 2 * y.toInt + 1 < 64 := by
    rw [pam_valid, onPanel_iff, panelHeight]
    omega
  refine ⟨hvalid, fun hy => ?_⟩
  have hlow := y.le_toInt
  rw [toInt_doubled_of_le hy, ← Bool.not_eq_true, hvalid]
  omega

theorem toInt_eq_toNat_of_nonneg {c : Coord} (h : 0 ≤ c.toInt) : c.toInt = c.toNat :=
  BitVec.toInt_eq_toNat_of_msb (by rw [BitVec.msb_eq_toInt]; exact decide_eq_false (Int.not_lt.2 h))

theorem toInt_eq_toNat_of_onPanel {layout : Layout} {x y : Coord} (h : onPanel layout x y = true) :
    x.toInt = x.toNat ∧ y.toInt = y.toNat := by
  obtain ⟨hx0, -, hy0, -⟩ := (onPanel_iff layout x y).1 h
  exact ⟨toInt_eq_toNat_of_nonneg hx0, toInt_eq_toNat_of_nonneg hy0⟩

/-- An index is its page followed by its column (R40). -/
theorem pageOf_append_columnOf (i : Index) : pageOf i ++ columnOf i = i :=
  (BitVec.extractLsb'_append_extractLsb'_eq_extractLsb' rfl).trans BitVec.extractLsb'_eq_self

/-- The row bits above those that pick a row inside a byte name the page, and the column bits the column (R88). -/
theorem pam_idx_eq_append {layout : Layout} {x y : Coord} (h : onPanel layout x y = true) {shift : Nat}
    (hshift : rowsPerByte layout = 2 ^ shift) :
    (pam layout x y).idx = y.extractLsb' shift 3 ++ x.extractLsb' 0 7 := by
  obtain ⟨-, hx, -, hy⟩ := (onPanel_iff layout x y).1 h
  have hidx := pam_idx_toNat h
  obtain ⟨hxNat, hyNat⟩ := toInt_eq_toNat_of_onPanel h
  rw [hxNat] at hx hidx
  rw [hyNat] at hy hidx
  have hpage : pageOf (pam layout x y).idx = y.extractLsb' shift 3 := by
    refine BitVec.eq_of_toNat_eq ?_
    rw [pageOf_toNat, BitVec.extractLsb'_toNat, Nat.shiftRight_eq_div_pow, ← hshift]
    cases layout <;> simp only [rowsPerByte, panelHeight] at hidx hy ⊢ <;> omega
  have hcolumn : columnOf (pam layout x y).idx = x.extractLsb' 0 7 := by
    refine BitVec.eq_of_toNat_eq ?_
    rw [columnOf_toNat, BitVec.extractLsb'_toNat, Nat.shiftRight_zero]
    omega
  rw [← hpage, ← hcolumn, pageOf_append_columnOf]

/-- The HALF mask is a pair of bits, two places up for each row inside the byte (R88). -/
theorem pairMask_bitMask_doubledRow (y : Nat) : pairMask (bitMask (doubledRow y)) = 0x03#8 <<< (2 * (y % 4)) := by
  have hpair : ∀ r : Fin 4, pairMask (1#8 <<< (2 * r.val + 1)) = 0x03#8 <<< (2 * r.val) := by decide
  have hrow : doubledRow y % 8 = 2 * (y % 4) + 1 := by rw [doubledRow]; omega
  rw [bitMask, hrow]
  exact hpair ⟨y % 4, Nat.mod_lt y (by decide)⟩

theorem pam_mask {layout : Layout} {x y : Coord} (h : onPanel layout x y = true) :
    (pam layout x y).mask = (mapOnPanel layout x.toNat y.toNat).mask := by
  obtain ⟨hx, hy⟩ := toInt_eq_toNat_of_onPanel h
  rw [pam_of_onPanel h, hx, hy, Int.toNat_natCast, Int.toNat_natCast]

/-- Settles O27: the index is the page that the row names, followed by the column, and the low row bits are the row's
place in its byte. -/
theorem closedForms : Obligations.ClosedForms := by
  refine fun x y => ⟨fun hvalid => ?_, fun hvalid => ?_⟩ <;> rw [pam_valid] at hvalid
  · refine ⟨pam_idx_eq_append hvalid rfl, ?_⟩
    rw [pam_mask hvalid, BitVec.extractLsb'_toNat]
    rfl
  · refine ⟨pam_idx_eq_append hvalid rfl, ?_⟩
    rw [pam_mask hvalid, BitVec.extractLsb'_toNat]
    exact pairMask_bitMask_doubledRow y.toNat

/-- Settles O31: MAP only answers, with the response of R32's block, which asks whether the point is on the panel and
not what the guard is. -/
theorem mapReportsThePixel : Obligations.MapReportsThePixel := by
  intro x y s
  rw [exec_of_rdb_or_map (.inr ⟨x, y, rfl⟩)]
  simp only [specOp, pam_valid, onPanel_iff]
  rfl

end Sys2Proof.Machine

end

/-! ## The byte mutators (R100, R101, R107) -/

section

namespace Sys2Proof.Machine

/-- Settles O32: each mode is its bitwise operation, and keeps the bits outside the mask. -/
theorem combineRule : Obligations.CombineRule := by
  intro old m k hk
  refine ⟨BitVec.getLsbD_or, ?_, BitVec.getLsbD_xor, fun mode hm => ?_⟩
  · simp [combine, hk]
  · simp [combine_getLsbD mode old m hk, hm]

/-- Settles O33: an index is below 1024, so the guard alone can fail the check, and it does at index 0. -/
theorem indexCheck : Obligations.IndexCheck := by
  intro cfg i
  constructor
  · rw [indexOK, Bool.and_eq_true, decide_eq_true_iff, framebufferSize]
    cases cfg.index0Guard <;> simp
  · rw [← Bool.not_eq_true, indexOK_iff]
    simp

/-- Under one mask two mutators make one, when they do so on a bit inside the mask (R107). -/
theorem combine_combine_of_onBit {first second both : WriteMode}
    (hbit : ∀ b, second.onBit (first.onBit b) = both.onBit b) (b m : Byte) :
    combine second (combine first b m) m = combine both b m := by
  refine BitVec.eq_of_getLsbD_eq fun k hk => ?_
  simp only [combine_getLsbD _ _ _ hk]
  split
  · exact hbit _
  · rfl

/-- SUBTRACT keeps a byte that has none of the bits of the mask, and no other. -/
theorem combine_subtract_eq_self_iff (b m : Byte) : combine .SUBTRACT b m = b ↔ b &&& m = 0 := by
  have hxor : combine .SUBTRACT b m = b ^^^ (b &&& m) := by
    refine BitVec.eq_of_getLsbD_eq fun k hk => ?_
    rw [combine_getLsbD _ _ _ hk, BitVec.getLsbD_xor, BitVec.getLsbD_and, WriteMode.onBit]
    cases m.getLsbD k <;> simp
  rw [hxor]
  exact ⟨fun h => (BitVec.xor_right_inj b).1 (h.trans BitVec.xor_zero.symm), fun h => h ▸ BitVec.xor_zero⟩

/-- A bit that changes is a bit of the mask (R100). -/
theorem mask_getLsbD_of_combine_ne {mode : WriteMode} {b m : Byte} {k : Nat}
    (h : (combine mode b m).getLsbD k ≠ b.getLsbD k) : m.getLsbD k = true := by
  by_contra hm
  refine h ?_
  by_cases hk : k < 8
  · rw [combine_getLsbD _ _ _ hk, if_neg hm]
  · rw [BitVec.getLsbD_of_ge _ _ (by omega), BitVec.getLsbD_of_ge _ _ (by omega)]

/-- A mask of no bits changes nothing. -/
@[simp] theorem combine_zero (mode : WriteMode) (b : Byte) : combine mode b 0#8 = b := by
  refine BitVec.eq_of_getLsbD_eq fun k hk => ?_
  simp [combine_getLsbD _ _ _ hk]

/-- Adding the bits of a mask and then subtracting them is subtracting them (R107). -/
theorem combine_subtract_add (b m : Byte) : combine .SUBTRACT (combine .ADD b m) m = combine .SUBTRACT b m :=
  combine_combine_of_onBit (fun _ => rfl) b m

/-- Settles O37: (a) is that two inversions cancel; in (b) to (e) two mutators act on a bit inside the mask as one does,
and (b) restores the byte where that one, SUBTRACT, finds no bit to clear. -/
theorem combineLaws : Obligations.CombineLaws := by
  intro b m
  refine ⟨combine_invert_invert b m, combine_subtract_add b m, ?_, ?_, ?_, ?_, ?_, ?_⟩
  · rw [combine_subtract_add, combine_subtract_eq_self_iff]
  · exact combine_combine_of_onBit (both := .ADD) (fun _ => rfl) b m
  · exact combine_combine (by decide) b m
  · exact combine_combine (by decide) b m
  · exact combine_combine_of_onBit (both := .SUBTRACT) (fun _ => rfl) b m
  · exact combine_combine_of_onBit (both := .ADD) (fun _ => rfl) b m

end Sys2Proof.Machine

end

/-! ## What one PLOT does, and two (R102, R106, R107) -/

section

namespace Sys2Proof.Machine

theorem exec_of_plotsIn {mode : WriteMode} {x y : Coord} {i : Instr} (h : PlotsIn mode x y i) (s : State) :
    exec i s = .next (plot mode x y s) := by
  obtain ⟨rfl, rfl⟩ | ⟨rfl, rfl⟩ | ⟨rfl, rfl⟩ := h <;> rfl

/-- Settles O34: of the three things a PLOT can do, the clip test and the bounds check, which fails only at index 0 of a
guarded block, pick one. -/
theorem plotSequence : Obligations.PlotSequence := by
  intro mode x y i s hi
  rw [exec_of_plotsIn hi, pam_valid]
  obtain ⟨hoff, he⟩ | ⟨hon, hbad, he⟩ | ⟨hon, hok, he⟩ := plot_cases mode x y s <;> rw [he]
  · exact ⟨fun _ => rfl, by simp [hoff], by simp [hoff]⟩
  · obtain ⟨hguard, h0⟩ := (indexCheck s.cfg _).2.1 hbad
    exact ⟨by simp [hon], fun _ _ _ => by rw [h0]; rfl, by simp [hguard, h0]⟩
  · refine ⟨by simp [hon], fun _ hguard h0 => ?_, fun _ _ => ⟨_, rfl, rfl, ?_, fun a ha => ?_⟩⟩
    · rw [h0, indexOK_zero_of_guarded hguard] at hok
      cases hok
    · exact memRead_memWrite_same s.fb _ _
    · exact memRead_memWrite_other s.fb _ ha

/-- The bits of the byte at an address that a PLOT acts on: the mask of its point where it writes, none elsewhere. -/
def plotMask (s : State) (x y : Coord) (a : Nat) : Byte :=
  if onPanel s.layout_q x y ∧ indexOK s.cfg (pam s.layout_q x y).idx ∧ a = (pam s.layout_q x y).idx.toNat then
    (pam s.layout_q x y).mask
  else 0#8

theorem plotMask_of_writes {x y : Coord} {s : State} (h : PlotWrites s x y) :
    plotMask s x y (pam s.layout_q x y).idx.toNat = (pam s.layout_q x y).mask :=
  if_pos ⟨h.1, h.2, rfl⟩

theorem plotMask_of_ne {x y : Coord} {s : State} {a : Nat} (ha : a ≠ (pam s.layout_q x y).idx.toNat) :
    plotMask s x y a = 0#8 :=
  if_neg fun h => ha h.2.2

theorem plotMask_of_not_writes {x y : Coord} {s : State} (h : ¬ PlotWrites s x y) (a : Nat) : plotMask s x y a = 0#8 :=
  if_neg fun h' => h ⟨h'.1, h'.2.1⟩

/-- Where a PLOT acts on a bit, its point is on the panel and mapped there. -/
theorem plotMask_getLsbD {x y : Coord} {s : State} {a k : Nat} (h : (plotMask s x y a).getLsbD k = true) :
    onPanel s.layout_q x y = true ∧ a = (pam s.layout_q x y).idx.toNat ∧
      (pam s.layout_q x y).mask.getLsbD k = true := by
  unfold plotMask at h
  split at h
  · next hacts => exact ⟨hacts.1, hacts.2.2, h⟩
  · simp at h

@[simp] theorem plotMask_plot (mode : WriteMode) (x y x' y' : Coord) (s : State) :
    plotMask (plot mode x y s) x' y' = plotMask s x' y' := by
  funext a
  simp only [plotMask, plot_layout_q, plot_cfg]

/-- What a PLOT does to the byte at any address, whether it writes or not (R102). -/
theorem memRead_plot (mode : WriteMode) (x y : Coord) (s : State) (a : Nat) :
    memRead (plot mode x y s).fb a = combine mode (memRead s.fb a) (plotMask s x y a) := by
  by_cases h : PlotWrites s x y
  · rw [plot_fb_of_writes mode h, memRead_memWrite]
    split
    · next ha => rw [ha, plotMask_of_writes h, fbRead]
    · next ha => rw [plotMask_of_ne ha, combine_zero]
  · rw [plot_fb_of_not_writes mode h, plotMask_of_not_writes h, combine_zero]

/-- Settles O36: a bit that changes is one the PLOT acts on, and the mask bits are those of the point's row. -/
theorem plotChangesAtMostItsMask : Obligations.PlotChangesAtMostItsMask := by
  intro mode x y i s hi
  refine ⟨_, exec_of_plotsIn hi s, fun a k hk => ?_⟩
  rw [memRead_plot] at hk
  obtain ⟨hon, ha, hmask⟩ := plotMask_getLsbD (mask_getLsbD_of_combine_ne hk)
  refine ⟨by rw [pam_valid, hon], ha, hmask, ?_⟩
  have hrow := (pam_mask_getLsbD hon k).1 hmask
  cases hl : s.layout_q <;> simp only [hl, rowInByte, rowsPerByte] at hrow ⊢ <;> omega

theorem plot_keeps_inv (mode : WriteMode) (x y : Coord) {s : State} (h : s.inv = true) :
    (plot mode x y s).inv = true := by
  cases mode
  · exact exec_keeps_inv (i := .plotAdd x y) h rfl
  · exact exec_keeps_inv (i := .plotSub x y) h rfl
  · exact exec_keeps_inv (i := .plotInv x y) h rfl

/-- Invariant states with the same bytes hold the same framebuffer. -/
theorem fb_eq_of_inv {s t : State} (hs : s.inv = true) (ht : t.inv = true)
    (hbytes : ∀ a, memRead s.fb a = memRead t.fb a) : s.fb = t.fb :=
  Memory.wf_ext ((inv_iff s).1 hs).1 ((inv_iff t).1 ht).1 hbytes

/-- Two PLOTs of one point give back the framebuffer when their mutators give back every byte. -/
theorem plot_plot_fb_eq_self {first second : WriteMode} {x y : Coord} {s : State} (h : s.inv = true)
    (hbytes : ∀ a, combine second (combine first (memRead s.fb a) (plotMask s x y a)) (plotMask s x y a) =
      memRead s.fb a) :
    (plot second x y (plot first x y s)).fb = s.fb := by
  refine fb_eq_of_inv (plot_keeps_inv _ x y (plot_keeps_inv _ x y h)) h fun a => ?_
  rw [memRead_plot, memRead_plot, plotMask_plot, hbytes]

/-- A point whose bits are clear has none set among those its PLOT acts on. -/
theorem memRead_and_plotMask {x y : Coord} {s : State}
    (hclear : fbRead s (pam s.layout_q x y).idx &&& (pam s.layout_q x y).mask = 0) (a : Nat) :
    memRead s.fb a &&& plotMask s x y a = 0 := by
  unfold plotMask
  split
  · next h => rwa [h.2.2]
  · exact BitVec.and_zero

/-- Settles O38: on every byte two inversions cancel, and what ADD sets in clear bits SUBTRACT takes away; the canonical
form makes equal bytes an equal framebuffer. -/
theorem plotRoundTrips : Obligations.PlotRoundTrips := by
  intro x y s h
  refine ⟨⟨_, rfl, plot_plot_fb_eq_self h fun a => combine_invert_invert _ _⟩, fun hclear => ?_⟩
  refine ⟨_, rfl, plot_plot_fb_eq_self h fun a => ?_⟩
  rw [combine_subtract_add, combine_subtract_eq_self_iff]
  exact memRead_and_plotMask hclear a

theorem plotsIn_of_plotsAt {x y : Coord} {i : Instr} (h : PlotsAt x y i) : ∃ mode, PlotsIn mode x y i := by
  obtain rfl | rfl | rfl := h
  · exact ⟨.ADD, .inl ⟨rfl, rfl⟩⟩
  · exact ⟨.SUBTRACT, .inr (.inl ⟨rfl, rfl⟩)⟩
  · exact ⟨.INVERT, .inr (.inr ⟨rfl, rfl⟩)⟩

theorem execAll_pair_of_plotsIn {mode mode' : WriteMode} {x y x' y' : Coord} {i i' : Instr} (h : PlotsIn mode x y i)
    (h' : PlotsIn mode' x' y' i') (s : State) :
    execAll [i, i'] s = .next (plot mode' x' y' (plot mode x y s)) := by
  simp only [execAll, exec_of_plotsIn h, exec_of_plotsIn h']

/-- PLOTs mapped to different bytes do not act on the same byte. -/
theorem plotMask_eq_zero_or {x y x' y' : Coord} {s : State}
    (hne : (pam s.layout_q x y).idx ≠ (pam s.layout_q x' y').idx) (a : Nat) :
    plotMask s x y a = 0#8 ∨ plotMask s x' y' a = 0#8 := by
  by_cases ha : a = (pam s.layout_q x y).idx.toNat
  · exact .inr (plotMask_of_ne fun ha' => hne (BitVec.eq_of_toNat_eq (ha.symm.trans ha')))
  · exact .inl (plotMask_of_ne ha)

/-- Settles O39: on every byte one of the two PLOTs acts on no bit, so the order does not matter there. -/
theorem plotsToDifferentBytesCommute : Obligations.PlotsToDifferentBytesCommute := by
  intro x y x' y' i i' s h hi hi' hne
  obtain ⟨mode, hi⟩ := plotsIn_of_plotsAt hi
  obtain ⟨mode', hi'⟩ := plotsIn_of_plotsAt hi'
  refine ⟨_, _, execAll_pair_of_plotsIn hi hi' s, execAll_pair_of_plotsIn hi' hi s, ?_, by simp⟩
  refine fb_eq_of_inv (plot_keeps_inv _ _ _ (plot_keeps_inv _ _ _ h))
    (plot_keeps_inv _ _ _ (plot_keeps_inv _ _ _ h)) fun a => ?_
  simp only [memRead_plot, plotMask_plot]
  obtain h0 | h0 := plotMask_eq_zero_or hne a <;> simp only [h0, combine_zero]

end Sys2Proof.Machine

end

/-! ## One access to the framebuffer (R120 to R123) -/

section

namespace Sys2Proof.Machine

/-- DONE with no mapped point packs to the read byte in `rdata` and 0 in every other bit (R67). -/
theorem pack_plainResponse_done (v : Byte) : (plainResponse .DONE v).pack = v.setWidth 29 := by
  have hhigh : Status.DONE.code ++ BitVec.ofBool false ++ (0 : Index) ++ (0 : Byte) = 0#21 := by decide
  rw [BitVec.setWidth_eq_append (by decide), BitVec.cast_eq, Response.pack, plainResponse, hhigh]

/-- Without a read byte that is the all-zero word. -/
theorem pack_plainResponse_done_zero : (plainResponse .DONE 0).pack = 0 :=
  (pack_plainResponse_done 0).trans (BitVec.setWidth_zero 29 8)

theorem exec_nop (s : State) : exec .nop s = .next { s with owed := s.owed ++ [plainResponse .DONE 0] } := rfl

theorem exec_rdb (idx : Index) (s : State) :
    exec (.rdb idx) s = .next { s with owed := s.owed ++ [plainResponse .DONE (fbRead s idx)] } := rfl

theorem exec_wrb (idx : Index) (data : Byte) (s : State) :
    exec (.wrb idx data) s =
      .next { fbWrite idx data s with owed := s.owed ++ [plainResponse .DONE 0] } := rfl

theorem exec_clr (s : State) :
    exec .clr s = .next { fbClear s with owed := s.owed ++ [plainResponse .DONE 0] } := rfl

/-- Settles O44: NOP adds the plain DONE response, behind those owed before it. -/
theorem nopOnlyResponds : Obligations.NopOnlyResponds :=
  fun s => ⟨_, exec_nop s, pack_plainResponse_done_zero⟩

/-- Settles O41: RDB adds the plain DONE response with the byte at its index. -/
theorem rdbReturnsTheByte : Obligations.RdbReturnsTheByte :=
  fun idx s => ⟨_, exec_rdb idx s, pack_plainResponse_done (fbRead s idx), rfl⟩

/-- Settles O42: WRB is one store of its byte, and a read tells the address stored to from every other. -/
theorem wrbOverwritesTheByte : Obligations.WrbOverwritesTheByte := by
  intro idx data s
  refine ⟨_, _, exec_wrb idx data s, rfl, pack_plainResponse_done_zero, ?_, fun a ha => ?_⟩
  · exact memRead_memWrite_same s.fb idx.toNat data
  · exact memRead_memWrite_other s.fb data ha

end Sys2Proof.Machine

end

/-! ## The loop of CLR (R122) -/

section

namespace Sys2Proof.Machine

/-- The loop that stores one byte at each of the addresses in turn. -/
def memFill (v : Byte) (as : List Nat) (m : Memory) : Memory := as.foldl (fun m a => memWrite m a v) m

theorem memRead_memFill (v : Byte) (as : List Nat) (m : Memory) (c : Nat) :
    memRead (memFill v as m) c = if c ∈ as then v else memRead m c := by
  induction as generalizing m with
  | nil => rfl
  | cons a as ih =>
    have hstep : memFill v (a :: as) m = memFill v as (memWrite m a v) := rfl
    rw [hstep, ih, memRead_memWrite]
    by_cases hc : c ∈ as <;> simp [hc]

/-- A loop inside the framebuffer keeps the canonical form. -/
theorem memFill_wf (v : Byte) {as : List Nat} {m : Memory} (hm : Memory.wf m = true)
    (has : ∀ a ∈ as, a < framebufferSize) : Memory.wf (memFill v as m) = true := by
  induction as generalizing m with
  | nil => exact hm
  | cons a as ih =>
    obtain ⟨ha, has⟩ := List.forall_mem_cons.1 has
    exact ih (memWrite_wf v hm ha) has

/-- The loop of R122 lists nothing: inside the framebuffer it has stored `0x00`, and outside nothing was listed. -/
theorem memFill_zero_range {m : Memory} (hm : Memory.wf m = true) : memFill 0 (List.range framebufferSize) m = [] := by
  refine Memory.wf_ext (memFill_wf 0 hm fun a ha => List.mem_range.1 ha) Memory.wf_nil fun a => ?_
  rw [memRead_memFill, memRead_nil]
  split
  · rfl
  · next ha => exact memRead_outside hm (Nat.le_of_not_lt fun h => ha (List.mem_range.2 h))

/-- Settles O43: CLR leaves nothing listed, and neither does the loop from a canonical framebuffer. -/
theorem clrZeroesEveryByte : Obligations.ClrZeroesEveryByte := by
  intro s
  refine ⟨_, _, exec_clr s, rfl, pack_plainResponse_done_zero, memRead_nil, fun hinv => ?_⟩
  obtain ⟨hwf, -⟩ := (inv_iff s).1 hinv
  exact (memFill_zero_range hwf).symm

end Sys2Proof.Machine

end

/-! ## The replacement of a buffer (R49, R124) -/

section

namespace Sys2Proof.Machine

/-- WRBs of the bytes of `B` at the indices of a list leave those bytes there, and every other byte and the layout as
before. -/
theorem execAll_setBufferRequests (order : List Index) (B : Index → Byte) (s : State) :
    ∃ t, execAll (setBufferRequests order B) s = .next t ∧
      (∀ i, fbRead t i = if i ∈ order then B i else fbRead s i) ∧ t.layout_q = s.layout_q := by
  induction order generalizing s with
  | nil => exact ⟨s, rfl, fun _ => rfl, rfl⟩
  | cons j order ih =>
    obtain ⟨t, hrun, hbytes, hlayout⟩ := ih (respond .DONE 0 false 0 0 (fbWrite j (B j) s))
    refine ⟨t, hrun, fun i => ?_, hlayout⟩
    rw [hbytes, fbRead_respond, fbRead_fbWrite]
    by_cases hij : i = j
    · subst hij
      simp
    · simp [hij]

/-- Settles O46: an order that names every index leaves no byte of the old framebuffer. -/
theorem setBufferReplacesEverything : Obligations.SetBufferReplacesEverything := by
  intro s order B _ hall
  obtain ⟨t, hrun, hbytes, hlayout⟩ := execAll_setBufferRequests order B s
  exact ⟨t, hrun, fun i => (hbytes i).trans (if_pos (hall i)), hlayout⟩

end Sys2Proof.Machine

end

/-! ## The one refusal of a step (R140, R165(c)) -/

section

namespace Sys2Proof.Machine

theorem serve_next (w : RequestWord) (s : State) : ∃ t, serve w s = .next t := by
  obtain ⟨fb, he, -⟩ := serve_spec w s
  exact ⟨_, he⟩

/-- An edge outside reset at which the requester has broken its duty is refused (log 6). -/
theorem step_of_requestBroken {s : State} {e : Edge} {rest : List Edge} (hedges : s.edges = e :: rest)
    (hrst : e.rst = false) (hbroken : requestBroken e s = true) : step s = .refused .requestChanged := by
  have hbroken' : requestBroken e { s with edges := rest } = true := hbroken
  simp [step, hedges, clockEdge, hrst, hbroken']

/-- Every step but that one answers a next state. -/
theorem step_next_or_requestBroken (s : State) :
    (∃ t, step s = .next t) ∨ ∃ e rest, s.edges = e :: rest ∧ e.rst = false ∧ requestBroken e s = true := by
  obtain ⟨-, he⟩ | ⟨e, rest, hs, ⟨-, he⟩ | ⟨hrst, hbroken, -⟩ | ⟨-, -, -, he⟩ | ⟨-, -, -, he⟩⟩ := step_cases s
  · exact .inl ⟨s, he⟩
  · exact .inl ⟨_, he⟩
  · exact .inr ⟨e, rest, hs, hrst, hbroken⟩
  · exact .inl (he ▸ serve_next _ _)
  · exact .inl ⟨_, he⟩

/-- Settles O11: the port's own test for a broken duty is that of R165(c), and every other edge, with the request it may
accept, answers a next state. -/
theorem stepsStopOnlyOnABrokenDuty : Obligations.StepsStopOnlyOnABrokenDuty := by
  intro s
  refine ⟨⟨fun hrefused => ?_, ?_⟩, ?_⟩
  · obtain ⟨t, ht⟩ | ⟨e, rest, hs, hrst, hbroken⟩ := step_next_or_requestBroken s
    · cases ht.symm.trans hrefused
    · obtain ⟨w, hw⟩ := (requestBroken_iff e s).1 hbroken
      exact ⟨e, rest, w, hs, hrst, hw⟩
  · rintro ⟨e, rest, w, hs, hrst, hw⟩
    exact step_of_requestBroken hs hrst ((requestBroken_iff e s).2 ⟨w, hw⟩)
  · exact (step_next_or_requestBroken s).imp_right fun ⟨_, _, hs, hrst, hbroken⟩ =>
      step_of_requestBroken hs hrst hbroken

end Sys2Proof.Machine

end

/-! ## The conditions and what they record (R141 to R143) -/

section

namespace Sys2Proof.Machine

/-- The three statuses of a PLOT, as R142 orders them. -/
theorem specPlot_status (cfg : Config) (mode : WriteMode) (x y : Coord) (σ : SpecState) :
    (specPlot cfg mode x y σ).2.status =
      if onPanel σ.1 x y then if indexOK cfg (pam σ.1 x y).idx then .DONE else .GUARDED else .CLIPPED := by
  cases hon : onPanel σ.1 x y with
  | false => rw [specPlot_off cfg mode hon]; rfl
  | true =>
    cases hok : indexOK cfg (pam σ.1 x y).idx with
    | false => rw [specPlot_guarded mode hon hok]; rfl
    | true => rw [specPlot_done mode hon hok]; rfl

theorem specPlot_status_clipped_iff (cfg : Config) (mode : WriteMode) (x y : Coord) (σ : SpecState) :
    (specPlot cfg mode x y σ).2.status = .CLIPPED ↔ onPanel σ.1 x y = false := by
  rw [specPlot_status]
  cases onPanel σ.1 x y <;> cases indexOK cfg (pam σ.1 x y).idx <;> decide

theorem indexOK_eq_false_iff (cfg : Config) (i : Index) :
    indexOK cfg i = false ↔ i = 0 ∧ cfg.index0Guard = true := by
  rw [← Bool.not_eq_true, indexOK_iff, not_or, Bool.not_eq_false, ne_eq, Decidable.not_not, and_comm]

theorem specPlot_status_guarded_iff (cfg : Config) (mode : WriteMode) (x y : Coord) (σ : SpecState) :
    (specPlot cfg mode x y σ).2.status = .GUARDED ↔
      onPanel σ.1 x y = true ∧ (pam σ.1 x y).idx = 0 ∧ cfg.index0Guard = true := by
  rw [specPlot_status, ← indexOK_eq_false_iff]
  cases onPanel σ.1 x y <;> cases indexOK cfg (pam σ.1 x y).idx <;> decide

/-- Clipped are MAP and the PLOTs of a point off the panel (R83, R141). -/
theorem specOp_status_clipped_iff (cfg : Config) (i : Instr) (σ : SpecState) :
    (specOp cfg i σ).2.status = .CLIPPED ↔
      ∃ x y, (i = .map x y ∨ PlotsAt x y i) ∧ onPanel σ.1 x y = false := by
  cases i with
  | nop | rdb | wrb | clr => simp [specOp, plainResponse, PlotsAt]
  | map x y => cases hon : onPanel σ.1 x y <;> simp [specOp, plainResponse, pointResponse, PlotsAt, hon]
  | plotAdd x y | plotSub x y | plotInv x y => simp [specOp, specPlot_status_clipped_iff, PlotsAt]

/-- Guarded are the PLOTs of a point of byte 0 in a guarded block (R101, R141). -/
theorem specOp_status_guarded_iff (cfg : Config) (i : Instr) (σ : SpecState) :
    (specOp cfg i σ).2.status = .GUARDED ↔
      ∃ x y, PlotsAt x y i ∧ onPanel σ.1 x y = true ∧ (pam σ.1 x y).idx = 0 ∧ cfg.index0Guard = true := by
  cases i with
  | nop | rdb | wrb | clr => simp [specOp, plainResponse, PlotsAt]
  | map x y => cases hon : onPanel σ.1 x y <;> simp [specOp, plainResponse, pointResponse, PlotsAt, hon]
  | plotAdd x y | plotSub x y | plotInv x y => simp [specOp, specPlot_status_guarded_iff, PlotsAt]

theorem specOp_status_ne_illegal (cfg : Config) (i : Instr) (σ : SpecState) :
    (specOp cfg i σ).2.status ≠ .ILLEGAL := by
  have hmapper : ∀ {x y}, (i = .map x y ∨ PlotsAt x y i) → (specOp cfg i σ).2.status ≠ .ILLEGAL := by
    intro x y hi
    obtain ⟨st, hst, hr⟩ := specOp_response_of_mapper hi cfg σ
    rwa [hr]
  cases i with
  | nop | rdb | wrb | clr => simp [specOp, plainResponse]
  | map x y => exact hmapper (.inl rfl)
  | plotAdd x y => exact hmapper (.inr (.inl rfl))
  | plotSub x y => exact hmapper (.inr (.inr (.inl rfl)))
  | plotInv x y => exact hmapper (.inr (.inr (.inr rfl)))

theorem specRequest_status_illegal_iff (cfg : Config) (w : RequestWord) (σ : SpecState) :
    (specRequest cfg w σ).2.status = .ILLEGAL ↔ ∃ reason, decode w = .illegal reason := by
  cases hd : decode w with
  | illegal reason => simp [specRequest_of_illegal hd, plainResponse]
  | instr i => simp [specRequest_of_instr hd, specOp_status_ne_illegal]

theorem specRequest_status_clipped_iff (cfg : Config) (w : RequestWord) (σ : SpecState) :
    (specRequest cfg w σ).2.status = .CLIPPED ↔
      ∃ x y i, (i = .map x y ∨ PlotsAt x y i) ∧ decode w = .instr i ∧ onPanel σ.1 x y = false := by
  cases hd : decode w with
  | illegal reason => simp [specRequest_of_illegal hd, plainResponse]
  | instr i =>
    simp only [specRequest_of_instr hd, specOp_status_clipped_iff, Decoded.instr.injEq, existsAndEq, true_and]

theorem specRequest_status_guarded_iff (cfg : Config) (w : RequestWord) (σ : SpecState) :
    (specRequest cfg w σ).2.status = .GUARDED ↔
      ∃ x y i, PlotsAt x y i ∧ decode w = .instr i ∧
        onPanel σ.1 x y = true ∧ (pam σ.1 x y).idx = 0 ∧ cfg.index0Guard = true := by
  cases hd : decode w with
  | illegal reason => simp [specRequest_of_illegal hd, plainResponse]
  | instr i =>
    simp only [specRequest_of_instr hd, specOp_status_guarded_iff, Decoded.instr.injEq, existsAndEq, true_and]

/-- A request adds one well-shaped response, and stores only where that is DONE (R67, R141, R143). -/
theorem serve_response_shape (w : RequestWord) (s : State) :
    ∃ r fb, serve w s = .next { s with fb := fb, owed := s.owed ++ [r] } ∧ r.wellShaped = true ∧
      (r.status ≠ .DONE → fb = s.fb) := by
  obtain ⟨i, -, hserve⟩ | ⟨reason, -, hserve⟩ := serve_cases w s
  · rw [hserve]
    obtain ⟨r, hr, he | ⟨hdone, j, v, -, he⟩ | ⟨hdone, -, he⟩⟩ := exec_cases i s
    · exact ⟨r, _, he, hr, fun _ => rfl⟩
    · exact ⟨r, _, he, hr, fun hne => absurd hdone hne⟩
    · exact ⟨r, _, he, hr, fun hne => absurd hdone hne⟩
  · exact ⟨_, _, hserve, rfl, fun _ => rfl⟩

/-- That response is the one of R32's block. -/
theorem serve_specRequest_response (w : RequestWord) (s : State) :
    ∃ fb, serve w s = .next { s with fb := fb, owed := s.owed ++ [(specRequest s.cfg w s.spec).2] } ∧
      (specRequest s.cfg w s.spec).2.wellShaped = true ∧
      ((specRequest s.cfg w s.spec).2.status ≠ .DONE → fb = s.fb) := by
  obtain ⟨r, fb, he, hshape⟩ := serve_response_shape w s
  obtain ⟨fb', he', -⟩ := serve_spec w s
  have howed := congrArg State.owed (Host.Outcome.next.inj (he.symm.trans he'))
  obtain rfl := List.singleton_inj.1 (List.append_cancel_left howed)
  exact ⟨fb, he, hshape⟩

/-- What a condition leaves in the fields of its response: no read byte and index 0 in each, and a mapped point in
GUARDED alone (R141). -/
theorem condition_fields {r : Response} (h : r.wellShaped = true) :
    (r.status ≠ .DONE → r.mIdx = 0 ∧ r.rdata = 0) ∧
    (r.status = .ILLEGAL ∨ r.status = .CLIPPED → r.mValid = false ∧ r.mMask = 0) ∧
    (r.status = .GUARDED → r.mValid = true) := by
  obtain ⟨st, mv, idx, mask, rd⟩ := r
  rw [Response.wellShaped, Bool.and_eq_true, Bool.and_eq_true] at h
  obtain ⟨⟨hpoint, hbyte⟩, hstatus⟩ := h
  cases st with
  | DONE => simp
  | CLIPPED | ILLEGAL =>
    obtain ⟨rfl, rfl⟩ : mv = false ∧ rd = 0 := by simpa using hstatus
    simpa using hpoint
  | GUARDED =>
    obtain ⟨rfl, rfl⟩ : mv = true ∧ idx = 0 := by simpa using hstatus
    simpa using hbyte

/-- The code stands in `status[28:27]` (R67, R68). -/
theorem pack_extractLsb_of_status {r : Response} {st : Status} (h : r.status = st) :
    r.pack.extractLsb 28 27 = st.code :=
  (pack_status r).trans (congrArg Status.code h)

/-- Settles O21: the response is that of R32's block, whose statuses `specRequest_status_illegal_iff` and its two
companions tell apart, in the shape that every response has. -/
theorem conditionsAreReported : Obligations.ConditionsAreReported := by
  intro w s
  obtain ⟨fb, hserve, hshape, hfb⟩ := serve_specRequest_response w s
  obtain ⟨hzero, hplain, hpoint⟩ := condition_fields hshape
  refine ⟨_, _, hserve, rfl, specRequest_status_illegal_iff s.cfg w s.spec, ?_, ?_, pack_extractLsb_of_status,
    pack_extractLsb_of_status, pack_extractLsb_of_status, fun hne => ⟨by rw [hfb hne], hzero hne⟩, hplain,
    fun hguarded => ⟨hpoint hguarded, fun x y i hi hd => ?_⟩⟩
  · rw [specRequest_status_clipped_iff]
    simp only [← Bool.not_eq_true, onPanel_iff, State.spec]
  · rw [specRequest_status_guarded_iff]
    simp only [pam_valid, State.spec]
  · exact (specRequest_mapper_fields (.inr ⟨i, hi, hd⟩) s.cfg s.spec).2.2

end Sys2Proof.Machine

end

/-! ## Edges that accept nothing (R60, R167, R169) -/

section

namespace Sys2Proof.Machine

theorem requestBroken_of_duty {s : State} {e : Edge}
    (hduty : s.presented = none ∨ (e.reqValid = true ∧ s.presented = some e.req)) : requestBroken e s = false := by
  obtain h | ⟨hvalid, h⟩ := hduty
  · rw [requestBroken, h]
  · exact requestBroken_of_kept hvalid (.inr h)

/-- An edge outside reset that accepts nothing, the requester's duty kept, only waits. -/
theorem step_of_wait {s : State} {e : Edge} {rest : List Edge} (hedges : s.edges = e :: rest) (hrst : e.rst = false)
    (hduty : s.presented = none ∨ (e.reqValid = true ∧ s.presented = some e.req))
    (hidle : e.reqValid = false ∨ e.ready = false) : step s = .next (waitEdge e { s with edges := rest }) := by
  have hbroken : requestBroken e { s with edges := rest } = false := requestBroken_of_duty hduty
  have hacc : e.accepts = false := by rw [accepts_of_not_rst hrst, Bool.and_eq_false_iff]; exact hidle
  simp [step, hedges, clockEdge, hrst, hbroken, hacc]

theorem answerOldest_owed_eq_or_tail (e : Edge) (s : State) :
    (answerOldest e s).owed = s.owed ∨ (e.answer = true ∧ (answerOldest e s).owed = s.owed.tail) := by
  obtain ⟨r, ha, howed, -⟩ | ⟨-, howed, -⟩ := answerOldest_response e s
  · exact .inr ⟨ha, by rw [howed, List.tail_cons]⟩
  · exact .inl howed

/-- Settles O10: such an edge is a waiting edge, which only lets the oldest response leave. -/
theorem waitingChangesNothing : Obligations.WaitingChangesNothing := by
  intro s e rest hedges hrst hduty hidle
  exact ⟨_, step_of_wait hedges hrst hduty hidle, waitEdge_fb _ e, waitEdge_layout_q _ e, waitEdge_cfg _ e,
    waitEdge_edges _ e, waitEdge_presented _ e, waitEdge_resetStrap _ e, waitEdge_draws _ e,
    answerOldest_owed_eq_or_tail e { s with edges := rest }⟩

/-- An edge outside reset that answers, no request on the port: the oldest response owed leaves for `rsp`. -/
theorem step_of_answer {s : State} {e : Edge} {rest : List Edge} {r : Response} {owed : List Response}
    (hedges : s.edges = e :: rest) (howed : s.owed = r :: owed) (hnone : s.presented = none)
    (he : e.rst = false ∧ e.answer = true ∧ e.reqValid = false) :
    step s = .next { s with edges := rest, owed := owed, rsp := some r.pack, resetStrap := .outside } := by
  obtain ⟨hrst, hanswer, hvalid⟩ := he
  rw [step_of_wait hedges hrst (.inl hnone) (.inl hvalid)]
  simp [waitEdge, answerOldest, hanswer, howed, hvalid, hnone]

/-- Settles O12, by induction on the edges: each delivers the oldest response and leaves the rest to the edges after
it. -/
theorem owedAnswersDrain : Obligations.OwedAnswersDrain := by
  intro s es
  induction es generalizing s with
  | nil =>
    intro rest _ hlen _ _
    have howed : s.owed = [] := List.eq_nil_of_length_eq_zero hlen.symm
    exact ⟨s, run_zero s, howed, by rw [howed]; rfl, rfl, rfl⟩
  | cons e es ih =>
    intro rest hedges hlen hnone hes
    obtain ⟨r, owed, howed⟩ := List.exists_cons_of_length_eq_add_one hlen.symm
    rw [howed, List.length_cons, List.length_cons, Nat.succ_inj] at hlen
    have hstep := step_of_answer hedges howed hnone (hes e List.mem_cons_self)
    obtain ⟨t, hrun, hdone, hwords, hfb, hlayout⟩ :=
      ih { s with edges := es ++ rest, owed := owed, rsp := some r.pack, resetStrap := .outside } rest rfl hlen hnone
        fun d hd => hes d (List.mem_cons_of_mem e hd)
    refine ⟨t, (run_succ_of_next hstep).trans hrun, hdone, ?_, hfb, hlayout⟩
    rw [List.length_cons, answeredWords, hstep, howed, List.map_cons, ← hwords]
    rfl

end Sys2Proof.Machine

end

/-! ## What reset alone changes (R160 to R164, R23) -/

section

namespace Sys2Proof.Machine

theorem serve_keeps_layout_q {w : RequestWord} {s t : State} (ht : serve w s = .next t) : t.layout_q = s.layout_q :=
  (congrArg Prod.fst (performs_serve ht).1).trans (specRequest_layout s.cfg w s.spec)

theorem clockEdge_of_not_rst {e : Edge} (hrst : e.rst = false) (s : State) :
    clockEdge e s =
      if requestBroken e s then .refused .requestChanged
      else if e.accepts then serve e.req (acceptState e s)
      else .next (waitEdge e s) :=
  if_neg (Bool.eq_false_iff.1 hrst)

/-- Nothing that an edge outside reset does reads the strap (R164). -/
theorem clockEdge_strap_of_not_rst {e : Edge} (hrst : e.rst = false) (b : BitVec 1) (s : State) :
    clockEdge { e with strap := b } s = clockEdge e s :=
  (clockEdge_of_not_rst (e := { e with strap := b }) hrst s).trans (clockEdge_of_not_rst hrst s).symm

/-- Settles O15: of all that a step can do, a reset edge alone writes the layout, and it alone reads the strap. -/
theorem layoutChangesOnlyInReset : Obligations.LayoutChangesOnlyInReset := by
  refine ⟨fun s t ht hne => ?_, fun s e rest b hrst => clockEdge_strap_of_not_rst hrst b _⟩
  obtain ⟨-, rfl⟩ | ⟨e, rest, hedges, ⟨hrst, -⟩ | ⟨-, -, he⟩ | ⟨-, -, rfl⟩⟩ := step_next_cases ht
  · exact absurd rfl hne
  · exact ⟨e, rest, hedges, hrst⟩
  · exact absurd ((serve_keeps_layout_q he).trans (acceptState_layout_q _ e)) hne
  · exact absurd (waitEdge_layout_q _ e) hne

theorem reqReady_of_rst {e : Edge} (hrst : e.rst = true) : e.reqReady = false := by
  rw [Edge.reqReady, hrst, Bool.not_true, Bool.false_and]

theorem step_of_rst {s : State} {e : Edge} {rest : List Edge} (hedges : s.edges = e :: rest) (hrst : e.rst = true) :
    step s = .next (resetEdge e { s with edges := rest }) := by
  simp only [step, hedges, clockEdge, hrst, if_true]

/-- Settles O13: `resetEdge_cases` says which layout the edge leaves, the strap's or a free one, and all else is as after
any reset (R31). (`resetEdge` itself is the model's function.) -/
theorem resetEdge_effect : Obligations.ResetEdge := by
  intro s e rest hedges hrst
  have hready := reqReady_of_rst hrst
  refine ⟨hready, by rw [Edge.accepts, hready, Bool.and_false], _, step_of_rst hedges hrst, rfl, rfl, rfl,
    memRead_nil, rfl, rfl, ?_⟩
  obtain ⟨hsteady, h⟩ | ⟨hmoved, h⟩ := resetEdge_cases { s with edges := rest } e <;> rw [h]
  · exact ⟨fun _ => ⟨rfl, rfl, rfl⟩, fun hn => absurd hsteady hn⟩
  · exact ⟨fun hs => absurd hs hmoved, fun _ => ⟨rfl, rfl, rfl⟩⟩

end Sys2Proof.Machine

end

/-! ## Saturation keeps the verdict of the clip test (R108, R165(e)) -/

section

namespace Sys2Proof.Machine

/-- Saturation brings a coordinate to the nearest 16-bit one. -/
theorem saturateCoord_toInt (v : Int) : (saturateCoord v).toInt = max (-32768) (min v 32767) := by
  unfold saturateCoord
  split_ifs <;> rw [BitVec.toInt_ofInt_eq_self (by decide)] <;> omega

/-- Settles O30: the panel lies inside the 16-bit range, so saturation moves no coordinate across its border. -/
theorem saturationKeepsTheClip : Obligations.SaturationKeepsTheClip := by
  intro layout x y
  have hheight := panelHeight_le layout
  rw [pam_valid, onPanel_iff, saturateCoord_toInt, saturateCoord_toInt]
  omega

end Sys2Proof.Machine

end
